-- ==== Sys2Proof/Word.lean ====
section
/-! DEFINITION. The bit widths of the core (00_scope rules R4 and R9): registers are 32 bits, addresses 16, bytes 8. -/

namespace Sys2Proof

/-- An unsigned 8-bit value (R9). -/
abbrev Byte := BitVec 8

/-- An unsigned 16-bit absolute address (R9, R30). -/
abbrev Addr := BitVec 16

/-- An unsigned 32-bit value, the content of a register (R9, R10). -/
abbrev Word := BitVec 32

/-- The one-byte register operand of an instruction, any value 0 to 255 (R53): it names a register only when it is below 21. -/
abbrev RegField := BitVec 8

end Sys2Proof
end

