-- ==== Sys2Proof/Machine/Regions.lean ====
section
/-! DEFINITION. Region descriptors and the range checks of the memory arbiter (10_state R18, R19; 20_memory R30 to R35). -/

namespace Sys2Proof.Machine

/-- A region descriptor: a named view (`addr`, `size`) over a buffer of the caller (R19). -/
structure Region where
  /-- absolute 16-bit address of the first byte -/
  base : Addr
  /-- number of bytes; the spec gives it no width (N21) -/
  size : Nat
  deriving DecidableEq, Repr, Inhabited

/-- `BASE <= p < BASE + SIZE` on integers, without truncation (R31; D4, log 15). -/
def Region.contains (g : Region) (p : Nat) : Bool :=
  decide (g.base.toNat ≤ p ∧ p < g.base.toNat + g.size)

/-- All four bytes at `p` lie in the region: `BASE <= p` and `p + 4 <= BASE + SIZE` (R34, R35; D6, log 15). -/
def Region.containsWord (g : Region) (p : Nat) : Bool :=
  decide (g.base.toNat ≤ p ∧ p + 4 ≤ g.base.toNat + g.size)

/-- The region lies in the 64 KiB space: `addr + size <= 65536` (R19). -/
def Region.fits (g : Region) : Bool := decide (g.base.toNat + g.size ≤ 65536)

/-- The two regions share no byte (R19, R172). -/
def Region.disjoint (g k : Region) : Bool :=
  decide (g.size = 0 ∨ k.size = 0 ∨ g.base.toNat + g.size ≤ k.base.toNat ∨ k.base.toNat + k.size ≤ g.base.toNat)

/-- What `initialize` and `run` require of the two descriptors (R19, R172 item 1; D3, D26). -/
def regionsValid (rom ram : Region) : Bool := rom.fits && ram.fits && rom.disjoint ram

/-- The ROM region of the reference platform (R41). DESIGN CHOICE as a reset value, log 1. -/
def referenceRom : Region := { base := 0x0000, size := 0x0100 }

/-- The RAM region of the reference platform (R41). DESIGN CHOICE as a reset value, log 1. -/
def referenceRam : Region := { base := 0x8000, size := 0x0100 }

end Sys2Proof.Machine
end

