-- ==== Sys2Proof/Machine/HostCalls.lean ====
section
/-! DEFINITION. The host's calls on the core as plain data (00_scope R8): what the host can do between runs, and what a syscall
callback did and answered. Their effects are in HostApi.lean. -/

namespace Sys2Proof.Machine

/-- One call of the host (R8). -/
inductive HostAction where
  /-- `initialize(rom, ram, stack_size)` (R170); `buffer` is the content of the caller's ROM buffer, one byte per ROM address
  (R22: the caller put it there; log 20). -/
  | bind (rom ram : Region) (buffer : List Byte) (stackSize : Nat)
  /-- `run(program_size, max_instructions)` (R70). -/
  | run (programSize maxInstructions : Nat)
  /-- `get_register(id)` (R160). -/
  | getRegister (id : Nat)
  /-- `set_register(id, v)` (R160). -/
  | setRegister (id : Nat) (v : Word)
  /-- `raw_push(v)` (R161). -/
  | rawPush (v : Word)
  /-- `raw_pop()` (R161). -/
  | rawPop
  /-- `memory(addr)` (R40). -/
  | memory (p : Addr)
  /-- The host writes one byte of a buffer it owns, at absolute address `p` (R44, R47). -/
  | writeByte (p : Addr) (b : Byte)
  /-- Registers a callback, named by a number, or with `none` unregisters it (R18, R162). -/
  | register (callback : Option Nat)
  deriving DecidableEq, Repr, Inhabited

/-- What one invocation of the syscall callback did, in order, and the Boolean it returned (R92, R93). -/
structure HostAnswer where
  acts : List HostAction
  keepGoing : Bool
  deriving DecidableEq, Repr, Inhabited

end Sys2Proof.Machine
end

