-- ==== Sys2Proof/Machine/Memory.lean ====
section
/-! DEFINITION. Memory as a list of (absolute address, byte) in one canonical form: addresses strictly rising, no byte listed
that equals what an unlisted address reads as. Bytes of both regions stand in it; which addresses exist is Regions.lean's. -/

namespace Sys2Proof.Machine

/-- The bytes of the ROM and RAM buffers by absolute address (R20, R30). -/
abbrev Memory := List Host.Cell

/-- What an unlisted address reads as: RAM is zero-filled by `initialize` (R22, R170). For ROM bytes, which are the caller's
(R5, R22), DESIGN CHOICE, unsafe for claims about the reset state's ROM (log 2). -/
def Memory.unlisted : Byte := 0

/-- The canonical form. -/
abbrev Memory.wf (m : Memory) : Prop :=
  m.Pairwise (fun x y => x.1 < y.1) ∧ ∀ c ∈ m, c.2 ≠ Memory.unlisted

/-- The byte at absolute address `p`. -/
def Memory.read : Memory → Nat → Byte
  | [], _ => Memory.unlisted
  | (q, b) :: m, p => if q = p then b else Memory.read m p

/-- `b` in front of `m` at address `p`, unless `b` is what an unlisted address reads as. -/
def Memory.consCell (p : Nat) (b : Byte) (m : Memory) : Memory :=
  if b = Memory.unlisted then m else (p, b) :: m

/-- The byte at `p` set to `b`, the form kept canonical. -/
def Memory.write : Memory → Nat → Byte → Memory
  | [], p, b => Memory.consCell p b []
  | (q, c) :: m, p, b =>
    if p < q then Memory.consCell p b ((q, c) :: m)
    else if p = q then Memory.consCell p b m
    else (q, c) :: Memory.write m p b

/-- The bytes `bs` written at `p`, `p+1`, ... -/
def Memory.load (m : Memory) (p : Nat) : List Byte → Memory
  | [] => m
  | b :: bs => Memory.load (Memory.write m p b) (p + 1) bs

/-- `MemRead(p, 4)`: four bytes assembled little-endian (R34, R37; the byte order of data is decision D7, log 15). -/
def Memory.readWord (m : Memory) (p : Nat) : Word :=
  BitVec.ofNat 32 ((m.read p).toNat + 2 ^ 8 * (m.read (p + 1)).toNat + 2 ^ 16 * (m.read (p + 2)).toNat +
    2 ^ 24 * (m.read (p + 3)).toNat)

/-- Byte `k` of a word, byte 0 the least significant (R35). -/
def wordByte (v : Word) (k : Nat) : Byte := v.extractLsb' (8 * k) 8

/-- `MemWrite(p, 4, v)`: the four bytes of `v`, least significant at `p` (R35, R37; D7, log 15). -/
def Memory.writeWord (m : Memory) (p : Nat) (v : Word) : Memory :=
  m.load p [wordByte v 0, wordByte v 1, wordByte v 2, wordByte v 3]

end Sys2Proof.Machine
end

