-- ==== Sys2Proof/Machine/Registers.lean ====
section
/-! DEFINITION. The register file: 21 registers of 32 bits under dense ids, with the id table of 10_state rule R11. -/

namespace Sys2Proof.Machine

/-- `REGISTER_COUNT` (R4, R10). -/
abbrev registerCount : Nat := 21

/-- A valid register id, 0 to 20 (R10). -/
abbrev Reg := Fin registerCount

/-- The register file (R10): no banks, no aliases, no hard-wired register. -/
abbrev RegFile := Vector Word registerCount

/-- `REG_ID` of the instruction pointer (R11; the number is decision D2, log 13). -/
def Reg.ip : Reg := 16

/-- `REG_ID` of the base pointer (R11; D2, log 13). -/
def Reg.bp : Reg := 17

/-- `REG_ID` of the stack pointer (R11; D2, log 13). -/
def Reg.sp : Reg := 18

/-- `REG_ID` of the return address (R11; D2, log 13). -/
def Reg.ra : Reg := 19

/-- `REG_ID` of the register called overflow (R11; D2, log 13). -/
def Reg.ov : Reg := 20

/-- The operand byte that names register `r` (R53). -/
def Reg.field (r : Reg) : RegField := BitVec.ofNat 8 r.val

/-- The register file `initialize` leaves (R22, R23, R170): all zero, then SP at the top of RAM as an offset. -/
def RegFile.reset (ramSize : Nat) : RegFile :=
  (Vector.replicate registerCount (0 : Word)).set Reg.sp (BitVec.ofNat 32 ramSize)

end Sys2Proof.Machine
end

