-- ==== Sys2Proof/Config.lean ====
section
/-! DEFINITION. What the spec leaves open, as constants WITHOUT A BODY (00_scope R5, 93_implementation_defined): nothing in Lean
can compute or prove a value of one, so a statement that mentions one holds whatever it is. -/

namespace Sys2Proof

/-- The three shifts, the first argument of `shift_oob` (R125). -/
inductive ShiftOp where
  | shl | shr | ishr
  deriving DecidableEq, Repr, Inhabited

/-- `shift_oob(op, value, n)`: the result of a shift whose amount is outside 0..31 (R125; D16, log 8). -/
opaque Config.shiftOob : ShiftOp → Word → Word → Word

/-- `SKIP_PERSISTS_ACROSS_RUN`: whether a pending skip flag survives a PAUSED return (R79; D18, log 9). -/
opaque Config.skipPersistsAcrossRun : Bool

/-- Free value: where in `a .. a + L` IP stands after a run ended, by the number of the draw (R78; D19, log 5). -/
opaque Config.stopOffset : Nat → Nat

/-- Free value: what a callback reads as IP, by the number of the draw. IP "inside" an instruction is not architectural and the spec
gives it no value (R14, 90_conflicts C5; log 22). -/
opaque Config.callbackIp : Nat → Word

/-- Free value: what the registered callback does when the state holds no answer for it, by its name, the number of the draw,
the syscall code, the registers and the memory it sees (R93; D21, log 7). -/
opaque Config.hostAnswer : Nat → Nat → Byte → Machine.RegFile → Machine.Memory → Machine.HostAnswer

end Sys2Proof
end

