-- ==== Sys2Proof/Syntax.lean ====
section
/-! DEFINITION. The 26 instructions of the dispatch table with their operands in byte order (30_encoding R52, R53). -/

namespace Sys2Proof

/-- One constructor per row of spec/opcode_table.json. A register operand is the operand BYTE, any value 0 to 255: a decoded
instruction may hold one that its own check later finds invalid (R56, R81). -/
inductive Instr where
  | nop
  | halt
  | syscall (code : Byte)
  | lcons (reg : RegField) (imm : Word)
  | mov (reg1 reg2 : RegField)
  | push (reg : RegField)
  | pop (reg : RegField)
  | call (addr : Addr)
  | ret
  | store (addr : Addr) (reg : RegField)
  | load (reg : RegField) (addr : Addr)
  | add (reg1 reg2 : RegField)
  | sub (reg1 reg2 : RegField)
  | mul (reg1 reg2 : RegField)
  | div (reg1 reg2 : RegField)
  | shl (reg1 reg2 : RegField)
  | shr (reg1 reg2 : RegField)
  | ishr (reg1 reg2 : RegField)
  | and (reg1 reg2 : RegField)
  | or (reg1 reg2 : RegField)
  | xor (reg1 reg2 : RegField)
  | not (reg1 : RegField)
  | jmp (addr : Addr)
  | jr (reg : RegField)
  | skipz (reg : RegField)
  | skipnz (reg : RegField)
  deriving DecidableEq, Repr, Inhabited

end Sys2Proof
end

