-- ==== Sys2Proof/Decode.lean ====
section
/-! DEFINITION. Bytes to instructions and back (30_encoding R50 to R56): the opcode table, a decoder total on any bytes that
rejects by name, and the encoder written from the same tables. -/

namespace Sys2Proof

/-- The instruction kinds, the rows of the opcode map (R52). -/
inductive Op where
  | nop | halt | syscall | lcons | mov | push | pop | call | ret | store | load
  | add | sub | mul | div | shl | shr | ishr | and | or | xor | not
  | jmp | jr | skipz | skipnz
  deriving DecidableEq, Repr, Inhabited

/-- The eight formats (R51). -/
inductive Format where
  | N | B | R | RR | A | AR | RA | RI
  deriving DecidableEq, Repr

/-- Why bytes are no instruction (R56). -/
inductive DecodeError where
  /-- no byte at all -/
  | noBytes
  /-- the opcode byte is 26 or more (R55) -/
  | unknownOpcode (opcode : Byte)
  /-- fewer than the `operandBytes` operand bytes of the opcode are there (R56) -/
  | truncated (operandBytes : Nat)
  deriving DecidableEq, Repr

/-- `OPCODE_ID`: the instruction at index `n` has opcode byte `n` (R52; the numbers are decision D1, log 12). -/
def opcodeTable : List Op :=
  [.nop, .halt, .syscall, .lcons, .mov, .push, .pop, .call, .ret, .store, .load] ++
  [.add, .sub, .mul, .div, .shl, .shr, .ishr, .and, .or, .xor, .not] ++
  [.jmp, .jr, .skipz, .skipnz]

/-- The format of each instruction (R51, R52; JR is format R, 90_conflicts C1). -/
def Op.format : Op → Format
  | .nop => .N
  | .halt => .N
  | .ret => .N
  | .syscall => .B
  | .lcons => .RI
  | .push => .R
  | .pop => .R
  | .not => .R
  | .jr => .R
  | .skipz => .R
  | .skipnz => .R
  | .call => .A
  | .jmp => .A
  | .store => .AR
  | .load => .RA
  | .mov => .RR
  | .add => .RR
  | .sub => .RR
  | .mul => .RR
  | .div => .RR
  | .shl => .RR
  | .shr => .RR
  | .ishr => .RR
  | .and => .RR
  | .or => .RR
  | .xor => .RR

/-- `L`, the operand bytes of a format (R51). -/
def Format.argLen : Format → Nat
  | .N => 0
  | .B => 1
  | .R => 1
  | .RR => 2
  | .A => 2
  | .AR => 3
  | .RA => 3
  | .RI => 5

/-- `ARGLEN` (R52, R54). -/
def Op.argLen (o : Op) : Nat := o.format.argLen

/-- The longest `L` of the table (R50: instructions have 1 to 6 bytes). -/
def maxArgLen : Nat := 5

/-- The kind of an instruction. -/
def Instr.op : Instr → Op
  | .nop => .nop
  | .halt => .halt
  | .syscall _ => .syscall
  | .lcons _ _ => .lcons
  | .mov _ _ => .mov
  | .push _ => .push
  | .pop _ => .pop
  | .call _ => .call
  | .ret => .ret
  | .store _ _ => .store
  | .load _ _ => .load
  | .add _ _ => .add
  | .sub _ _ => .sub
  | .mul _ _ => .mul
  | .div _ _ => .div
  | .shl _ _ => .shl
  | .shr _ _ => .shr
  | .ishr _ _ => .ishr
  | .and _ _ => .and
  | .or _ _ => .or
  | .xor _ _ => .xor
  | .not _ => .not
  | .jmp _ => .jmp
  | .jr _ => .jr
  | .skipz _ => .skipz
  | .skipnz _ => .skipnz

/-- `L` of an instruction. -/
def Instr.argLen (i : Instr) : Nat := i.op.argLen

/-- `length = 1 + ARGLEN` (R56). -/
def Instr.length (i : Instr) : Nat := 1 + i.argLen

/-- What decoding answers: an instruction and the bytes after it, or why not. -/
abbrev Decoded := Except DecodeError (Instr × List Byte)

/-- `addr`: two bytes little-endian, `lo + 256 * hi` (R53). -/
def addrOfBytes (lo hi : Byte) : Addr := BitVec.ofNat 16 (lo.toNat + 256 * hi.toNat)

/-- `imm`: four bytes little-endian, `i0 + 2^8 i1 + 2^16 i2 + 2^24 i3` (R53, R95). -/
def immOfBytes (b0 b1 b2 b3 : Byte) : Word :=
  BitVec.ofNat 32 (b0.toNat + 2 ^ 8 * b1.toNat + 2 ^ 16 * b2.toNat + 2 ^ 24 * b3.toNat)

/-- One operand byte: formats B and R (R51). -/
def takeByte (mk : Byte → Instr) : List Byte → Decoded
  | r :: t => .ok (mk r, t)
  | _ => .error (.truncated 1)

/-- Format RR (R51). -/
def takeRR (mk : RegField → RegField → Instr) : List Byte → Decoded
  | d :: s :: t => .ok (mk d s, t)
  | _ => .error (.truncated 2)

/-- Format A (R51). -/
def takeA (mk : Addr → Instr) : List Byte → Decoded
  | lo :: hi :: t => .ok (mk (addrOfBytes lo hi), t)
  | _ => .error (.truncated 2)

/-- Format AR, the address first (R51). -/
def takeAR (mk : Addr → RegField → Instr) : List Byte → Decoded
  | lo :: hi :: r :: t => .ok (mk (addrOfBytes lo hi) r, t)
  | _ => .error (.truncated 3)

/-- Format RA, the register first (R51). -/
def takeRA (mk : RegField → Addr → Instr) : List Byte → Decoded
  | r :: lo :: hi :: t => .ok (mk r (addrOfBytes lo hi), t)
  | _ => .error (.truncated 3)

/-- Format RI (R51). -/
def takeRI (mk : RegField → Word → Instr) : List Byte → Decoded
  | r :: b0 :: b1 :: b2 :: b3 :: t => .ok (mk r (immOfBytes b0 b1 b2 b3), t)
  | _ => .error (.truncated 5)

/-- The operands of an instruction of kind `o` read from the bytes after its opcode (R51, R53). -/
def decodeOperands (o : Op) (bs : List Byte) : Decoded :=
  match o with
  | .nop => .ok (.nop, bs)
  | .halt => .ok (.halt, bs)
  | .ret => .ok (.ret, bs)
  | .syscall => takeByte .syscall bs
  | .lcons => takeRI .lcons bs
  | .push => takeByte .push bs
  | .pop => takeByte .pop bs
  | .not => takeByte .not bs
  | .jr => takeByte .jr bs
  | .skipz => takeByte .skipz bs
  | .skipnz => takeByte .skipnz bs
  | .call => takeA .call bs
  | .jmp => takeA .jmp bs
  | .store => takeAR .store bs
  | .load => takeRA .load bs
  | .mov => takeRR .mov bs
  | .add => takeRR .add bs
  | .sub => takeRR .sub bs
  | .mul => takeRR .mul bs
  | .div => takeRR .div bs
  | .shl => takeRR .shl bs
  | .shr => takeRR .shr bs
  | .ishr => takeRR .ishr bs
  | .and => takeRR .and bs
  | .or => takeRR .or bs
  | .xor => takeRR .xor bs

/-- The kind an opcode byte selects, if any (R52, R55). -/
def opOfByte (b : Byte) : Option Op := opcodeTable[b.toNat]?

/-- Decoding, total on any bytes (R56): unknown opcode, else truncated, else the instruction. -/
def decode : List Byte → Decoded
  | [] => .error .noBytes
  | b :: bs =>
    match opOfByte b with
    | none => .error (.unknownOpcode b)
    | some o => decodeOperands o bs

/-- The opcode byte of a kind, its place in the table (R52). -/
def opcodeByte (o : Op) : Byte := BitVec.ofNat 8 (opcodeTable.idxOf o)

/-- `addr[7:0], addr[15:8]` (R51). -/
def addrBytes (t : Addr) : List Byte := [t.extractLsb' 0 8, t.extractLsb' 8 8]

/-- `imm[7:0]` up to `imm[31:24]` (R51). -/
def immBytes (v : Word) : List Byte := [v.extractLsb' 0 8, v.extractLsb' 8 8, v.extractLsb' 16 8, v.extractLsb' 24 8]

/-- The operand bytes of an instruction in ascending address order (R51, R52). -/
def Instr.operandBytes : Instr → List Byte
  | .nop => []
  | .halt => []
  | .syscall c => [c]
  | .lcons r v => r :: immBytes v
  | .mov d s => [d, s]
  | .push r => [r]
  | .pop r => [r]
  | .call t => addrBytes t
  | .ret => []
  | .store p r => addrBytes p ++ [r]
  | .load r p => r :: addrBytes p
  | .add d s => [d, s]
  | .sub d s => [d, s]
  | .mul d s => [d, s]
  | .div d s => [d, s]
  | .shl d s => [d, s]
  | .shr d s => [d, s]
  | .ishr d s => [d, s]
  | .and d s => [d, s]
  | .or d s => [d, s]
  | .xor d s => [d, s]
  | .not d => [d]
  | .jmp t => addrBytes t
  | .jr r => [r]
  | .skipz r => [r]
  | .skipnz r => [r]

/-- The bytes of an instruction in ascending address order (R50). -/
def encode (i : Instr) : List Byte := opcodeByte i.op :: i.operandBytes

/-- The six bytes of an instruction whose low `nbits` bits are those of `w`, the first byte least significant, zeros above. -/
def tableBytes (nbits w : Nat) : List Byte :=
  (List.range (1 + maxArgLen)).map fun k => BitVec.ofNat 8 ((w % 2 ^ nbits) / 256 ^ k)

/-- The instruction the decoder reads from the bits `w` of an opcode-table row of `nbits` bits. -/
def decodeTableWord (nbits w : Nat) : Option Instr :=
  match decode (tableBytes nbits w) with
  | .ok (i, _) => some i
  | .error _ => none

end Sys2Proof
end

