-- ==== Sys2Proof/Machine/State.lean ====
section
/-! DEFINITION. The state the spec gives the machine (10_state), the ways a step can stop, and the state after reset. -/

namespace Sys2Proof.Machine

/-- The six error results of `run` (R71, R151). The spec gives them names only (D24, log 11). -/
inductive ErrCode where
  | unknownOpcode
  | invalidRegister
  | invalidAddress
  | stackOverflow
  | stackUnderflow
  | unhandledInterrupt
  deriving DecidableEq, Repr

/-- What `run` returns (R71). -/
inductive RunResult where
  | finished
  | paused
  | error (e : ErrCode)
  deriving DecidableEq, Repr

/-- Where the core stands between host and program (R70, R78, R80). -/
inductive Phase where
  /-- No run is in progress and a `run` may start: after `initialize`, or after the host wrote IP following a stop (R80). -/
  | ready
  /-- Inside a `run` call: a step is one iteration of the loop (R72). -/
  | running
  /-- The last `run` returned this result; only PAUSED may be resumed (R79, R80). -/
  | stopped (r : RunResult)
  deriving DecidableEq, Repr

/-- The model faults of R156: stops the spec names for what its source leaves undefined. None is a result of `run`; the state
is never a final state. -/
inductive Fault where
  /-- UNDEFINED_DIV_BY_ZERO, by DIV with a zero divisor (R118). Safe: the model stops where the source is undefined (log 18). -/
  | undefinedDivByZero
  /-- UNSPEC_STACK_RANGE, by PUSH with SP above RAM_SIZE (R100). Safe (log 18). -/
  | unspecStackRange
  /-- REFUSED_IP_OPERAND, by every executed instruction with a register field equal to 16 (R14, R81). Safe (log 18). -/
  | refusedIpOperand
  deriving DecidableEq, Repr

/-- Situations the spec gives no meaning ("refuse", R9). All but the first are host calls; each is safe: the model stops. -/
inductive Refusal where
  /-- By an arm of `exec` whose instruction has no meaning yet. Safe. -/
  | notModelled (mnemonic : String)
  /-- By `initialize` and `run` with regions that overlap or leave the 64 KiB space (R19, R172). Safe (log 19). -/
  | regionsInvalid
  /-- By `initialize` when the ROM buffer's length is not the region's size (R19, R20). Safe (log 20). -/
  | romBufferLength
  /-- By `run` after FINISHED or an error with no `initialize` and no host write of IP (R80). Safe (log 19). -/
  | runAfterStop
  /-- By `get_register` and `set_register` with an id of 21 or more (R160). Safe (log 19). -/
  | registerIdOutOfRange
  /-- By `raw_push` and `raw_pop` when the slot is not wholly inside RAM (R161). Safe (log 19). -/
  | rawStackOutsideRam
  /-- By `memory(addr)` and by a host write at an address in neither region (R40, R30). Safe (log 19). -/
  | addressUnmapped
  /-- By a callback that calls `run` or `initialize`, writes IP or changes the registration (R93, R162). Safe (log 19). -/
  | notPermittedInCallback
  deriving DecidableEq, Repr

/-- The whole state. The last three fields are the model's own (INVENTORY.md, State). -/
structure State where
  /-- the 21 registers, IP, BP, SP, RA and OV among them (R10, R11) -/
  regs : RegFile
  /-- the one-shot skip flag (R16) -/
  skip : Bool
  /-- the bytes of both buffers by absolute address (R20) -/
  mem : Memory
  /-- the ROM descriptor (R18, R19) -/
  rom : Region
  /-- the RAM descriptor (R18, R19) -/
  ram : Region
  /-- `STACK_SIZE_HINT`, stored and never read (R18, R170) -/
  stackSizeHint : Nat
  /-- the callback slot: absent, or a host function held by a name (R18, R162; log 7) -/
  callback : Option Nat
  /-- whether a run is in progress, and the last result (R70, R71, R80) -/
  phase : Phase
  /-- `program_size` of the current run (R70) -/
  programSize : Nat
  /-- `max_instructions` of the current run; 0 is unbounded (R70, R77) -/
  maxInstructions : Nat
  /-- the per-run instruction counter (R17) -/
  count : Nat
  /-- MODEL: the host's calls still to come (log 4) -/
  host : List HostAction
  /-- MODEL: what the callback will do at the next SYSCALLs (log 7) -/
  hostAnswers : List HostAnswer
  /-- MODEL: how many runs ended and callbacks were invoked, the number of the next free value (logs 5, 7, 22) -/
  draws : Nat
  deriving DecidableEq, Repr

/-- What an instruction or a step answers. -/
abbrev Effect := Host.Outcome State Fault Refusal

/-- The state right after `initialize` (R22, R170) on the reference platform (log 1), with no callback registered and no run
begun (log 3). -/
def State.reset : State where
  regs := RegFile.reset referenceRam.size
  skip := false
  mem := []
  rom := referenceRom
  ram := referenceRam
  stackSizeHint := 0
  callback := none
  phase := .ready
  programSize := 0
  maxInstructions := 0
  count := 0
  host := []
  hostAnswers := []
  draws := 0

end Sys2Proof.Machine
end

