-- ==== Sys2Proof/Machine/Ops.lean ====
section
/-! DEFINITION. The named operations over registers, memory and the stack, the advance of IP, and ending a run: delivering an
error or FINISHED to the host, which is this core's whole exception mechanism (60_exceptions R150 to R153). -/

namespace Sys2Proof.Machine

/-- `x[r]` (R9). -/
def State.reg (s : State) (r : Reg) : Word := s.regs[r]

/-- `x[r] <- v` (R9). -/
def State.setReg (s : State) (r : Reg) (v : Word) : State := { s with regs := s.regs.set r v }

/-- IP, the opcode address `a` of the instruction under way (R14). -/
def State.ip (s : State) : Word := s.reg Reg.ip

/-- SP, a byte offset into RAM (R36). -/
def State.sp (s : State) : Word := s.reg Reg.sp

/-- `IP <- t` (R76). -/
def State.jump (s : State) (t : Word) : State := s.setReg Reg.ip t

/-- The address `k` bytes after `w`, modulo 2^32 (R76, R83). -/
def addrPlus (w : Word) (k : Nat) : Word := w + BitVec.ofNat 32 k

/-- `IP <- a + 1 + L`: past an instruction with `L` operand bytes (R76). -/
def State.advance (s : State) (L : Nat) : State := s.jump (addrPlus s.ip (1 + L))

/-- The byte at absolute address `p`. -/
def State.byte (s : State) (p : Nat) : Byte := s.mem.read p

/-- `MemRead(p, 4)` (R34). -/
def State.loadWord (s : State) (p : Nat) : Word := s.mem.readWord p

/-- `MemWrite(p, 4, v)` (R35). -/
def State.storeWord (s : State) (p : Nat) (v : Word) : State := { s with mem := s.mem.writeWord p v }

/-- The absolute address of the stack slot an SP value names, `RAM_BASE + SP` (R36; D5, log 14). -/
def State.slot (s : State) (sp : Word) : Nat := s.ram.base.toNat + sp.toNat

/-- `StackRead(sp)` (R36). -/
def State.stackRead (s : State) (sp : Word) : Word := s.loadWord (s.slot sp)

/-- `StackWrite(sp, v)` (R36). -/
def State.stackWrite (s : State) (sp : Word) (v : Word) : State := s.storeWord (s.slot sp) v

/-- IP when a run has ended at an instruction of `L` operand bytes at `a`: `a` itself where `L = 0` (R91), else a free value
in `a .. a + L` (R78, U9; D19, log 5). -/
def stopIp (a : Word) (L draw : Nat) : Word :=
  if L = 0 then a else addrPlus a (Config.stopOffset draw % (L + 1))

/-- The current `run` returns `r` from an instruction of `L` operand bytes: nothing but IP changes (R78, R153), and the result
stands in `phase` for the host (log 6). -/
def State.endRun (s : State) (r : RunResult) (L : Nat) : State :=
  { s.jump (stopIp s.ip L s.draws) with phase := .stopped r, draws := s.draws + 1 }

/-- `raise E` (R9, R150, R153): the run ends with error result `e`, before anything is written. -/
def State.raise (s : State) (e : ErrCode) (L : Nat) : State := s.endRun (.error e) L

/-- `stop FINISHED` (R9, R91, R92). -/
def State.finish (s : State) (L : Nat) : State := s.endRun .finished L

/-- The bytes of ROM from `a` on, at most `n`, ending where ROM ends: what fetch can read (R33, R56, R74). -/
def State.romBytes (s : State) (a : Nat) : Nat → List Byte
  | 0 => []
  | n + 1 => if s.rom.contains a then s.byte a :: s.romBytes (a + 1) n else []

/-- The bytes fetch hands to the decoder: from IP, as many as the longest instruction has, inside ROM (R73, R74). -/
def State.fetchBytes (s : State) : List Byte := s.romBytes s.ip.toNat (1 + maxArgLen)

end Sys2Proof.Machine
end

