-- ==== Sys2Proof/Machine/Operands.lean ====
section
/-! DEFINITION. Register operands and their checks, made before anything is written (40_sequencer R81), and the shapes the
register instructions share. -/

namespace Sys2Proof.Machine

/-- One register operand `b` of an instruction with `L` operand bytes: 21 or more raises ERR_INVALID_REGISTER, 16 stops
(R81 items 1 and 2), else `k` goes on with the register. -/
def withReg (L : Nat) (b : RegField) (s : State) (k : Reg → Effect) : Effect :=
  if h : b.toNat < registerCount then
    if b.toNat = Reg.ip.val then .fault .refusedIpOperand else k ⟨b.toNat, h⟩
  else .next (s.raise .invalidRegister L)

/-- Two register operands, reg1 before reg2: both range checks come before both IP checks (R81). -/
def withRegs (L : Nat) (b c : RegField) (s : State) (k : Reg → Reg → Effect) : Effect :=
  if hb : b.toNat < registerCount then
    if hc : c.toNat < registerCount then
      if b.toNat = Reg.ip.val ∨ c.toNat = Reg.ip.val then .fault .refusedIpOperand
      else k ⟨b.toNat, hb⟩ ⟨c.toNat, hc⟩
    else .next (s.raise .invalidRegister L)
  else .next (s.raise .invalidRegister L)

/-- `x[d] <- v` and on past `L` operand bytes: the end of every instruction that writes one register. -/
def State.writeBack (s : State) (d : Reg) (v : Word) (L : Nat) : State := (s.setReg d v).advance L

/-- `reg1 <- reg1 o reg2`, both sources read before the write (R119). -/
def binary (op : Word → Word → Word) (b c : RegField) (s : State) : Effect :=
  withRegs 2 b c s fun d r => .next (s.writeBack d (op (s.reg d) (s.reg r)) 2)

end Sys2Proof.Machine
end

