-- ==== Sys2Proof/Machine/Arithmetic.lean ====
section
/-! DEFINITION. ADD, SUB, MUL, DIV (46_arithmetic): unsigned, the exact integer result narrowed to 32 bits (R119; D14, log 17). -/

namespace Sys2Proof.Machine

/-- `(x + y) mod 2^32` (R115). -/
def addWord (x y : Word) : Word := BitVec.ofNat 32 (x.toNat + y.toNat)

/-- `(x - y) mod 2^32` (R116). -/
def subWord (x y : Word) : Word := BitVec.ofInt 32 ((x.toNat : Int) - (y.toNat : Int))

/-- `(x * y) mod 2^32` (R117). -/
def mulWord (x y : Word) : Word := BitVec.ofNat 32 (x.toNat * y.toNat)

/-- `floor(x / y)`, both unsigned; used with `y` not zero (R118). -/
def divWord (x y : Word) : Word := BitVec.ofNat 32 (x.toNat / y.toNat)

/-- ADD reg1, reg2 (R115). -/
def execAdd (d r : RegField) (s : State) : Effect := binary addWord d r s

/-- SUB reg1, reg2 (R116). -/
def execSub (d r : RegField) (s : State) : Effect := binary subWord d r s

/-- MUL reg1, reg2 (R117). -/
def execMul (d r : RegField) (s : State) : Effect := binary mulWord d r s

/-- DIV reg1, reg2: a zero divisor is the model fault UNDEFINED_DIV_BY_ZERO (R118). -/
def execDiv (d r : RegField) (s : State) : Effect :=
  withRegs 2 d r s fun d r =>
    if (s.reg r).toNat = 0 then .fault .undefinedDivByZero
    else .next (s.writeBack d (divWord (s.reg d) (s.reg r)) 2)

end Sys2Proof.Machine
end

