-- ==== Sys2Proof/Machine/Flags.lean ====
section
/-! DEFINITION. The skip flag, the one flag the core has (10_state R15, R16): no instruction records carry, borrow or overflow,
and OV is no flag (R119). -/

namespace Sys2Proof.Machine

/-- `skip <- on` (R16, R136, R137). -/
def State.setSkip (s : State) (on : Bool) : State := { s with skip := on }

/-- The flag a run starts with: kept from a pause only if `SKIP_PERSISTS_ACROSS_RUN` (R79, R83; log 9). -/
def skipAtRunEntry (skip : Bool) : Bool := skip && Config.skipPersistsAcrossRun

/-- The condition of SKIPZ: the register ID is zero, "the id, not x[r]" (R136). -/
def idIsZero (r : Reg) : Bool := decide (r.val = 0)

end Sys2Proof.Machine
end

