-- ==== Sys2Proof/Machine/JumpSkip.lean ====
section
/-! DEFINITION. JMP, JR, SKIPZ, SKIPNZ (49_jump_skip). -/

namespace Sys2Proof.Machine

/-- JMP addr16: the target must be in ROM (R134). After the error the JMP itself has not written IP, but where the ended run leaves
IP is free in `a .. a + 2`: R134's "unchanged" beside R78, where the model follows R78 (D19, C11; log 5). -/
def execJmp (t : Addr) (s : State) : Effect :=
  if s.rom.contains t.toNat then .next (s.jump (t.setWidth 32)) else .next (s.raise .invalidAddress 2)

/-- `zext_16(v[15:0])` (R135). -/
def low16 (v : Word) : Word := (v.setWidth 16).setWidth 32

/-- JR reg: the low 16 bits of the register, not checked here (R135). -/
def execJr (r : RegField) (s : State) : Effect := withReg 1 r s fun r => .next (s.jump (low16 (s.reg r)))

/-- SKIPZ reg: tests the id, not the value (R136). -/
def execSkipz (r : RegField) (s : State) : Effect :=
  withReg 1 r s fun r => .next ((s.setSkip (idIsZero r)).advance 1)

/-- SKIPNZ reg: the mirror of SKIPZ (R137). -/
def execSkipnz (r : RegField) (s : State) : Effect :=
  withReg 1 r s fun r => .next ((s.setSkip (!idIsZero r)).advance 1)

end Sys2Proof.Machine
end

