-- ==== Sys2Proof/Machine/LoadStore.lean ====
section
/-! DEFINITION. STORE, LOAD (45_load_store): one 16-bit absolute address, four bytes, RAM only. -/

namespace Sys2Proof.Machine

/-- STORE addr16, reg (R110). -/
def execStore (p : Addr) (r : RegField) (s : State) : Effect :=
  withReg 3 r s fun r =>
    if s.ram.containsWord p.toNat then .next ((s.storeWord p.toNat (s.reg r)).advance 3)
    else .next (s.raise .invalidAddress 3)

/-- LOAD reg, addr16 (R111). -/
def execLoad (r : RegField) (p : Addr) (s : State) : Effect :=
  withReg 3 r s fun r =>
    if s.ram.containsWord p.toNat then .next (s.writeBack r (s.loadWord p.toNat) 3)
    else .next (s.raise .invalidAddress 3)

end Sys2Proof.Machine
end

