-- ==== Sys2Proof/Machine/Logic.lean ====
section
/-! DEFINITION. AND, OR, XOR, NOT (48_logic). -/

namespace Sys2Proof.Machine

/-- AND reg1, reg2 (R128). -/
def execAnd (d r : RegField) (s : State) : Effect := binary (fun x y => x &&& y) d r s

/-- OR reg1, reg2 (R129). -/
def execOr (d r : RegField) (s : State) : Effect := binary (fun x y => x ||| y) d r s

/-- XOR reg1, reg2 (R130). -/
def execXor (d r : RegField) (s : State) : Effect := binary (fun x y => x ^^^ y) d r s

/-- Every one of the 32 bits inverted (R131). -/
def notWord (x : Word) : Word := ~~~x

/-- NOT reg1, in place (R131). -/
def execNot (d : RegField) (s : State) : Effect :=
  withReg 1 d s fun d => .next (s.writeBack d (notWord (s.reg d)) 1)

end Sys2Proof.Machine
end

