-- ==== Sys2Proof/Machine/Move.lean ====
section
/-! DEFINITION. LCONS, MOV (42_move). -/

namespace Sys2Proof.Machine

/-- LCONS reg, imm32 (R95). -/
def execLcons (r : RegField) (v : Word) (s : State) : Effect :=
  withReg 5 r s fun r => .next (s.writeBack r v 5)

/-- MOV reg1, reg2 (R96). -/
def execMov (d r : RegField) (s : State) : Effect := binary (fun _ y => y) d r s

end Sys2Proof.Machine
end

