-- ==== Sys2Proof/Machine/Shift.lean ====
section
/-! DEFINITION. SHL, SHR, ISHR (47_shift). The amount is the whole second register; outside 0..31 the result is the open
function `shift_oob` (R125, log 8). -/

namespace Sys2Proof.Machine

/-- A shift by an amount of 0 to 31, on integers (R122, R123, R124; two's complement reading for ISHR, log 17). -/
def shiftExact (op : ShiftOp) (x : Word) (n : Nat) : Word :=
  match op with
  | .shl => BitVec.ofNat 32 (x.toNat * 2 ^ n)
  | .shr => BitVec.ofNat 32 (x.toNat / 2 ^ n)
  | .ishr => BitVec.ofInt 32 (x.toInt / 2 ^ n)

/-- The result of a shift (R122 to R125). -/
def shiftWord (op : ShiftOp) (x n : Word) : Word :=
  if n.toNat ≤ 31 then shiftExact op x n.toNat else Config.shiftOob op x n

/-- SHL reg1, reg2 (R122). -/
def execShl (d r : RegField) (s : State) : Effect := binary (shiftWord .shl) d r s

/-- SHR reg1, reg2 (R123). -/
def execShr (d r : RegField) (s : State) : Effect := binary (shiftWord .shr) d r s

/-- ISHR reg1, reg2 (R124). -/
def execIshr (d r : RegField) (s : State) : Effect := binary (shiftWord .ishr) d r s

end Sys2Proof.Machine
end

