-- ==== Sys2Proof/Machine/Stack.lean ====
section
/-! DEFINITION. PUSH, POP (43_stack). Comparisons are on integers (D9, log 14). -/

namespace Sys2Proof.Machine

/-- `SP <- SP - 4`, then `x[r]`, read after the decrement, to the slot (R100). -/
def State.pushed (s : State) (r : Reg) : State :=
  let t := s.setReg Reg.sp (s.sp - 4)
  t.stackWrite t.sp (t.reg r)

/-- PUSH reg (R100). -/
def execPush (r : RegField) (s : State) : Effect :=
  withReg 1 r s fun r =>
    if s.sp.toNat < 4 then .next (s.raise .stackOverflow 1)
    else if s.ram.size < s.sp.toNat then .fault .unspecStackRange
    else .next ((s.pushed r).advance 1)

/-- `x[r] <- StackRead(SP)`, then `SP <- SP + 4`: after POP SP, SP is the slot's value plus 4 (R101). -/
def State.popped (s : State) (r : Reg) : State :=
  let t := s.setReg r (s.stackRead s.sp)
  t.setReg Reg.sp (t.sp + 4)

/-- POP reg: underflow is tested before the program-size guard (R101). -/
def execPop (r : RegField) (s : State) : Effect :=
  withReg 1 r s fun r =>
    if s.ram.size < s.sp.toNat + 4 then .next (s.raise .stackUnderflow 1)
    else if s.sp.toNat + 4 < s.programSize then .next (s.raise .stackOverflow 1)
    else .next ((s.popped r).advance 1)

end Sys2Proof.Machine
end

