-- ==== Sys2Proof/Machine/Subroutine.lean ====
section
/-! DEFINITION. CALL, RET (44_call_return). -/

namespace Sys2Proof.Machine

/-- CALL addr16: the target is checked before RA is written; RA is the address after the three bytes (R105). After the error the
CALL itself has not written IP, but where the ended run leaves IP is free in `a .. a + 2`: R105's "unchanged" beside R78, where the
model follows R78 (D19, C11; log 5). -/
def execCall (t : Addr) (s : State) : Effect :=
  if s.rom.contains t.toNat then .next ((s.setReg Reg.ra (addrPlus s.ip 3)).jump (t.setWidth 32))
  else .next (s.raise .invalidAddress 2)

/-- RET: IP takes all 32 bits of RA; the next fetch checks it (R106). -/
def execRet (s : State) : Effect := .next (s.jump (s.reg Reg.ra))

end Sys2Proof.Machine
end

