-- ==== Sys2Proof/Machine/HostApi.lean ====
section
/-! DEFINITION. The host's interfaces on the state (00_scope R8; 60_exceptions R160 to R162; 70_reset R170; 20_memory R40): each
answers the new state or value, or refuses by name what the spec gives no meaning (D31, log 19). -/

namespace Sys2Proof.Machine

/-- `initialize(rom, ram, stack_size)` (R170), `buffer` being the content of the caller's ROM buffer: the RAM buffer and the
register file are zero-filled, SP is the top of RAM, skip is 0, ROM bytes and the callback slot are as the host has them. -/
def State.initialized (s : State) (rom ram : Region) (buffer : List Byte) (stackSize : Nat) : State :=
  { s with
    regs := RegFile.reset ram.size
    skip := false
    mem := Memory.load [] rom.base.toNat buffer
    rom := rom
    ram := ram
    stackSizeHint := stackSize
    phase := .ready
    programSize := 0
    maxInstructions := 0
    count := 0 }

/-- `initialize`, refused for regions that overlap or leave the address space (R19) and for a buffer of another length. -/
def hostInitialize (rom ram : Region) (buffer : List Byte) (stackSize : Nat) (s : State) : Except Refusal State :=
  if regionsValid rom ram then
    if buffer.length = rom.size then .ok (s.initialized rom ram buffer stackSize) else .error .romBufferLength
  else .error .regionsInvalid

/-- Whether a `run` may start: not after FINISHED or an error (R80). -/
def Phase.runnable : Phase → Bool
  | .ready => true
  | .running => false
  | .stopped .paused => true
  | .stopped .finished => false
  | .stopped (.error _) => false

/-- The state at the first iteration of `run(program_size, max_instructions)`: count 0, the skip flag as R83 leaves it. -/
def State.begun (s : State) (programSize maxInstructions : Nat) : State :=
  { s with
    phase := .running
    programSize := programSize
    maxInstructions := maxInstructions
    count := 0
    skip := skipAtRunEntry s.skip }

/-- `run` called by the host (R70, R79, R80, R83). -/
def hostRun (programSize maxInstructions : Nat) (s : State) : Except Refusal State :=
  if regionsValid s.rom s.ram then
    if s.phase.runnable then .ok (s.begun programSize maxInstructions) else .error .runAfterStop
  else .error .regionsInvalid

/-- `get_register(id)` (R160). -/
def hostGetRegister (id : Nat) (s : State) : Except Refusal Word :=
  if h : id < registerCount then .ok (s.reg ⟨id, h⟩) else .error .registerIdOutOfRange

/-- After a host write of IP a `run` has a meaning again (R80). -/
def Phase.afterIpWrite : Phase → Phase
  | .ready => .ready
  | .running => .running
  | .stopped _ => .ready

/-- `set_register(id, v)` (R160); writing IP re-enables `run` (R80, R160). -/
def hostSetRegister (id : Nat) (v : Word) (s : State) : Except Refusal State :=
  if h : id < registerCount then
    .ok { s.setReg ⟨id, h⟩ v with phase := if id = Reg.ip.val then s.phase.afterIpWrite else s.phase }
  else .error .registerIdOutOfRange

/-- `raw_push(v)`: `SP <- SP - 4; StackWrite(SP, v)`, refused when the slot `SP-4 .. SP-1` is not inside RAM (R161). -/
def hostRawPush (v : Word) (s : State) : Except Refusal State :=
  if 4 ≤ s.sp.toNat ∧ s.sp.toNat ≤ s.ram.size then
    .ok ((s.setReg Reg.sp (s.sp - 4)).stackWrite (s.sp - 4) v)
  else .error .rawStackOutsideRam

/-- `raw_pop()`: `v <- StackRead(SP); SP <- SP + 4; return v`, refused when the slot is not inside RAM (R161). -/
def hostRawPop (s : State) : Except Refusal (Word × State) :=
  if s.sp.toNat + 4 ≤ s.ram.size then
    .ok (s.stackRead s.sp, s.setReg Reg.sp (s.sp + 4))
  else .error .rawStackOutsideRam

/-- Which buffer an address translates into (R40). -/
inductive Location where
  | rom (offset : Nat)
  | ram (offset : Nat)
  deriving DecidableEq, Repr

/-- `memory(addr)`: ROM first, then RAM; the fallback for an unmapped address is refused (R40, U3). -/
def hostMemory (p : Addr) (s : State) : Except Refusal Location :=
  if s.rom.contains p.toNat then .ok (.rom (p.toNat - s.rom.base.toNat))
  else if s.ram.contains p.toNat then .ok (.ram (p.toNat - s.ram.base.toNat))
  else .error .addressUnmapped

/-- The host writes one byte of a buffer it owns (R44, R47). -/
def hostWriteByte (p : Addr) (b : Byte) (s : State) : Except Refusal State :=
  if s.rom.contains p.toNat || s.ram.contains p.toNat then .ok { s with mem := s.mem.write p.toNat b }
  else .error .addressUnmapped

/-- Registers a callback, or unregisters with `none`: at most one is registered (R162). -/
def hostRegister (callback : Option Nat) (s : State) : State := { s with callback := callback }

/-- A call of the host outside any run; what a call returns to the host is the value of the function named above. -/
def hostCall (a : HostAction) (s : State) : Except Refusal State :=
  match a with
  | .bind rom ram buffer stackSize => hostInitialize rom ram buffer stackSize s
  | .run programSize maxInstructions => hostRun programSize maxInstructions s
  | .getRegister id => (hostGetRegister id s).map fun _ => s
  | .setRegister id v => hostSetRegister id v s
  | .rawPush v => hostRawPush v s
  | .rawPop => (hostRawPop s).map Prod.snd
  | .memory p => (hostMemory p s).map fun _ => s
  | .writeByte p b => hostWriteByte p b s
  | .register cb => .ok (hostRegister cb s)

/-- The registers a callback sees: the register file, with a free value as IP, whose value inside an instruction the spec does not
give (R14, C5; log 22). The core's own IP stays the SYSCALL's address. -/
def State.callbackRegs (s : State) : RegFile := s.regs.set Reg.ip (Config.callbackIp s.draws)

/-- `get_register(id)` called in the callback (R93, R160): as between runs, but for IP, which reads as a free value (log 22). -/
def callbackGetRegister (id : Nat) (s : State) : Except Refusal Word :=
  hostGetRegister id { s with regs := s.callbackRegs }

/-- A call made from inside the callback: no `run`, no `initialize`, no write of IP, no registration (R93, R162); the rest as
outside a run (R47), but that IP reads as a free value (log 22). -/
def callbackCall (a : HostAction) (s : State) : Except Refusal State :=
  match a with
  | .bind _ _ _ _ => .error .notPermittedInCallback
  | .run _ _ => .error .notPermittedInCallback
  | .register _ => .error .notPermittedInCallback
  | .setRegister id v => if id = Reg.ip.val then .error .notPermittedInCallback else hostSetRegister id v s
  | .getRegister id => (callbackGetRegister id s).map fun _ => s
  | .rawPush v => hostCall (.rawPush v) s
  | .rawPop => hostCall .rawPop s
  | .memory p => hostCall (.memory p) s
  | .writeByte p b => hostCall (.writeByte p b) s

/-- The calls of one callback invocation, in order. -/
def callbackCalls : List HostAction → State → Except Refusal State
  | [], s => .ok s
  | a :: acts, s =>
    match callbackCall a s with
    | .ok t => callbackCalls acts t
    | .error r => .error r

/-- What callback `cb`, called with `code`, does now, and the state in which it does it: the next answer the state holds, or a
free value (R93, U20; D21, log 7). Every invocation is a draw of its own, so that IP reads afresh in each (log 22). -/
def State.takeAnswer (s : State) (cb : Nat) (code : Byte) : HostAnswer × State :=
  let t := { s with draws := s.draws + 1 }
  match s.hostAnswers with
  | answer :: rest => (answer, { t with hostAnswers := rest })
  | [] => (Config.hostAnswer cb t.draws code t.callbackRegs t.mem, t)

/-- A step outside any run: the host's next call, or nothing: "between `run` calls the core is simply idle and keeps all state"
(R158; log 4). -/
def hostStep (s : State) : Effect :=
  match s.host with
  | [] => .next s
  | a :: rest =>
    match hostCall a { s with host := rest } with
    | .ok t => .next t
    | .error r => .refused r

end Sys2Proof.Machine
end

