-- ==== Sys2Proof/Machine/System.lean ====
section
/-! DEFINITION. NOP, HALT, SYSCALL (41_system). -/

namespace Sys2Proof.Machine

/-- NOP (R90). -/
def execNop (s : State) : Effect := .next (s.advance 0)

/-- HALT: the run ends with FINISHED and IP still addresses the HALT (R91). -/
def execHalt (s : State) : Effect := .next (s.finish 0)

/-- How SYSCALL ends once the callback `answer`ed in state `s`: true goes on, false is FINISHED (R92); a call the callback may
not make is refused (R93). -/
def afterCallback (answer : HostAnswer) (s : State) : Effect :=
  match callbackCalls answer.acts s with
  | .ok t => if answer.keepGoing then .next (t.advance 1) else .next (t.finish 1)
  | .error r => .refused r

/-- SYSCALL code (R92): without a callback ERR_UNHANDLED_INTERRUPT, before the host is involved; nothing but IP changes, which the
ended run leaves free in `a .. a + 1` (R78; log 5). -/
def execSyscall (code : Byte) (s : State) : Effect :=
  match s.callback with
  | none => .next (s.raise .unhandledInterrupt 1)
  | some cb => afterCallback (s.takeAnswer cb code).1 (s.takeAnswer cb code).2

end Sys2Proof.Machine
end

