-- ==== Sys2Proof/Machine/Dispatch.lean ====
section
/-! DEFINITION. The dispatch of step 5 of an iteration (R76): one meaning per instruction. -/

namespace Sys2Proof.Machine

def exec (i : Instr) (s : State) : Host.Outcome State Fault Refusal :=
  match i with
  | .nop => Sys2Proof.Machine.execNop s
  | .halt => Sys2Proof.Machine.execHalt s
  | .syscall code => Sys2Proof.Machine.execSyscall code s
  | .lcons r v => Sys2Proof.Machine.execLcons r v s
  | .mov d r => Sys2Proof.Machine.execMov d r s
  | .push r => Sys2Proof.Machine.execPush r s
  | .pop r => Sys2Proof.Machine.execPop r s
  | .call t => Sys2Proof.Machine.execCall t s
  | .ret => Sys2Proof.Machine.execRet s
  | .store p r => Sys2Proof.Machine.execStore p r s
  | .load r p => Sys2Proof.Machine.execLoad r p s
  | .add d r => Sys2Proof.Machine.execAdd d r s
  | .sub d r => Sys2Proof.Machine.execSub d r s
  | .mul d r => Sys2Proof.Machine.execMul d r s
  | .div d r => Sys2Proof.Machine.execDiv d r s
  | .shl d r => Sys2Proof.Machine.execShl d r s
  | .shr d r => Sys2Proof.Machine.execShr d r s
  | .ishr d r => Sys2Proof.Machine.execIshr d r s
  | .and d r => Sys2Proof.Machine.execAnd d r s
  | .or d r => Sys2Proof.Machine.execOr d r s
  | .xor d r => Sys2Proof.Machine.execXor d r s
  | .not d => Sys2Proof.Machine.execNot d s
  | .jmp t => Sys2Proof.Machine.execJmp t s
  | .jr r => Sys2Proof.Machine.execJr r s
  | .skipz r => Sys2Proof.Machine.execSkipz r s
  | .skipnz r => Sys2Proof.Machine.execSkipnz r s

end Sys2Proof.Machine
end

