-- ==== Sys2Proof/Machine/Sequencer.lean ====
section
/-! DEFINITION. One iteration of the fetch/decode/execute loop (40_sequencer R72 to R83). -/

namespace Sys2Proof.Machine

/-- Step 6 (R77): count the instruction, then PAUSED if the budget is not 0 and is reached. -/
def State.counted (s : State) : State :=
  { s with
    count := s.count + 1
    phase := if s.maxInstructions ≠ 0 ∧ s.maxInstructions ≤ s.count + 1 then .stopped .paused else s.phase }

/-- Step 4 (R75): the instruction is consumed without executing, the flag cleared, and it counts. -/
def State.skipOver (s : State) (L : Nat) : State := ((s.setSkip false).advance L).counted

/-- Step 6 after step 5: an instruction that ended the run is not counted (R77, R83). -/
def afterExec (e : Effect) : Effect :=
  match e with
  | .next t => .next (if t.phase = .running then t.counted else t)
  | .fault f => .fault f
  | .refused r => .refused r

/-- Steps 4 to 6 for a decoded instruction. -/
def executeOrSkip (i : Instr) (s : State) : Effect :=
  if s.skip then .next (s.skipOver i.argLen) else afterExec (exec i s)

/-- A failed fetch (R73, R74). Where no `L` exists, IP is free over the longest one (log 5). -/
def fetchFailed (e : DecodeError) (s : State) : State :=
  match e with
  | .noBytes => s.raise .invalidAddress maxArgLen
  | .unknownOpcode _ => s.raise .unknownOpcode maxArgLen
  | .truncated L => s.raise .invalidAddress L

/-- One iteration of the loop: an IP outside ROM leaves no byte to fetch, step 1 (R73); opcode and operand-bytes checks are the
decoder's, steps 2 and 3 (R74); both precede the skip test. -/
def coreStep (s : State) : Effect :=
  match decode s.fetchBytes with
  | .ok (i, _) => executeOrSkip i s
  | .error e => .next (fetchFailed e s)

/-- One step of the machine: the core inside a run, the host otherwise (R7, R70). -/
def machineStep (s : State) : Effect :=
  match s.phase with
  | .running => coreStep s
  | .ready => hostStep s
  | .stopped _ => hostStep s

/-- The bytes `bs` written from address `p` on, as far as ROM reaches. -/
def romPlaced (rom : Region) (p : Nat) (bs : List Byte) (m : Memory) : Memory :=
  m.load p (bs.take (rom.base.toNat + rom.size - p))

/-- The bytes `bs` placed in ROM from IP on, and a run in progress with no skip pending: what makes the very next step execute
them, for an IP that leaves room for them in ROM, as after reset (log 3). -/
def State.placed (s : State) (bs : List Byte) : State :=
  { s with mem := romPlaced s.rom s.ip.toNat bs s.mem, phase := .running, skip := false }

end Sys2Proof.Machine
end

