-- ==== Sys2Proof/Machine/Step.lean ====
section
/-! DEFINITION. The step function, and an instruction placed where step fetches next. -/

namespace Sys2Proof.Machine

/-- One step of the machine. -/
def step (s : State) : Host.Outcome State Fault Refusal := machineStep s

/-- `s` with the instruction of bits `w` where the next step fetches, inside a run (log 3). -/
def State.withFetchWord (s : State) (nbits w : Nat) : State := s.placed (tableBytes nbits w)

end Sys2Proof.Machine
end

