-- ==== Sys2Proof/WellFormed.lean ====
section
/-! DEFINITION. Which instructions have register operands the core accepts (R12, R53, R81). An instruction that is not well
formed still decodes and still executes: its meaning ends the run with ERR_INVALID_REGISTER or stops (R81). -/

namespace Sys2Proof

/-- The register-operand bytes of an instruction in byte order (R51, R52). -/
def Instr.regFields : Instr → List RegField
  | .nop => []
  | .halt => []
  | .syscall _ => []
  | .lcons r _ => [r]
  | .mov d s => [d, s]
  | .push r => [r]
  | .pop r => [r]
  | .call _ => []
  | .ret => []
  | .store _ r => [r]
  | .load r _ => [r]
  | .add d s => [d, s]
  | .sub d s => [d, s]
  | .mul d s => [d, s]
  | .div d s => [d, s]
  | .shl d s => [d, s]
  | .shr d s => [d, s]
  | .ishr d s => [d, s]
  | .and d s => [d, s]
  | .or d s => [d, s]
  | .xor d s => [d, s]
  | .not d => [d]
  | .jmp _ => []
  | .jr r => [r]
  | .skipz r => [r]
  | .skipnz r => [r]

/-- Every register operand names a register: "Valid when `r < 21`" (R53). -/
def Instr.regsInRange (i : Instr) : Bool :=
  i.regFields.all fun r => decide (r.toNat < Machine.registerCount)

/-- No register operand names IP (R14). -/
def Instr.namesNoIp (i : Instr) : Bool :=
  i.regFields.all fun r => decide (r.toNat ≠ Machine.Reg.ip.val)

/-- The register operands pass checks (1) and (2) of R81. -/
def Instr.wellFormed (i : Instr) : Bool := i.regsInRange && i.namesNoIp

end Sys2Proof
end

