-- ==== Sys2Proof/Safety.lean ====
section
/-! DEFINITION. The terms claims use: what an instruction leaves unchanged, how a run ends, and the invariant of the machine. -/

namespace Sys2Proof

/-- The operand byte that names the register an instruction writes, for those that name one (R52; the rules R95 to R131). -/
def Instr.destination : Instr → Option RegField
  | .nop => none
  | .halt => none
  | .syscall _ => none
  | .lcons r _ => some r
  | .mov d _ => some d
  | .push _ => none
  | .pop r => some r
  | .call _ => none
  | .ret => none
  | .store _ _ => none
  | .load r _ => some r
  | .add d _ => some d
  | .sub d _ => some d
  | .mul d _ => some d
  | .div d _ => some d
  | .shl d _ => some d
  | .shr d _ => some d
  | .ishr d _ => some d
  | .and d _ => some d
  | .or d _ => some d
  | .xor d _ => some d
  | .not d => some d
  | .jmp _ => none
  | .jr _ => none
  | .skipz _ => none
  | .skipnz _ => none

/-- The registers an instruction may change beside IP: its named destination, RA for CALL, SP for PUSH and POP (R11, R102). -/
def Instr.mayWrite (i : Instr) (r : Machine.Reg) : Prop :=
  i.destination = some r.field ∨ (i.op = .call ∧ r = Machine.Reg.ra) ∨ ((i.op = .push ∨ i.op = .pop) ∧ r = Machine.Reg.sp)

end Sys2Proof

namespace Sys2Proof.Machine

/-- The configuration state, which only the host writes (R18), and the host's own pending calls. -/
structure SameConfig (s t : State) : Prop where
  rom : t.rom = s.rom
  ram : t.ram = s.ram
  stackSizeHint : t.stackSizeHint = s.stackSizeHint
  callback : t.callback = s.callback
  programSize : t.programSize = s.programSize
  maxInstructions : t.maxInstructions = s.maxInstructions
  host : t.host = s.host

/-- The run goes on as it was: its phase and counter, and no answer of the host or free value was used. -/
structure SameRun (s t : State) : Prop where
  phase : t.phase = s.phase
  count : t.count = s.count
  hostAnswers : t.hostAnswers = s.hostAnswers
  draws : t.draws = s.draws

/-- Every register outside `ws` holds what it held. -/
def RegsKept (ws : List Reg) (s t : State) : Prop := ∀ r, r ∉ ws → t.reg r = s.reg r

/-- Every byte of memory is unchanged. -/
def MemKept (s t : State) : Prop := ∀ p, t.byte p = s.byte p

/-- Every byte outside the `n` bytes at `p` is unchanged. -/
def MemKeptOutside (p n : Nat) (s t : State) : Prop := ∀ q, q < p ∨ p + n ≤ q → t.byte q = s.byte q

/-- The frame of an instruction that is `len` bytes long, falls through and writes at most the registers `ws` beside IP. -/
structure OnlyRegs (ws : List Reg) (len : Nat) (s t : State) : Prop where
  ip : t.ip = addrPlus s.ip len
  regs : RegsKept (Reg.ip :: ws) s t
  skip : t.skip = s.skip
  mem : MemKept s t
  config : SameConfig s t
  run : SameRun s t

/-- The frame of an instruction that sets IP to `target` and writes at most the registers `ws` beside it. -/
structure JumpsTo (target : Word) (ws : List Reg) (s t : State) : Prop where
  ip : t.ip = target
  regs : RegsKept (Reg.ip :: ws) s t
  skip : t.skip = s.skip
  mem : MemKept s t
  config : SameConfig s t
  run : SameRun s t

/-- The word `v` stands at `p`, least significant byte first (R35, R37), and every byte outside it is unchanged. -/
structure StoresWord (p : Nat) (v : Word) (s t : State) : Prop where
  byte0 : t.byte p = v.extractLsb' 0 8
  byte1 : t.byte (p + 1) = v.extractLsb' 8 8
  byte2 : t.byte (p + 2) = v.extractLsb' 16 8
  byte3 : t.byte (p + 3) = v.extractLsb' 24 8
  outside : MemKeptOutside p 4 s t

/-- The run returned `r` at an instruction with `L` operand bytes: IP is somewhere in `a .. a + L`, and no other register, no
byte, not the skip flag, not the counter and no configuration changed (R78, R153). -/
structure RunEnds (r : RunResult) (L : Nat) (s t : State) : Prop where
  phase : t.phase = .stopped r
  ip : ∃ k, k ≤ L ∧ t.ip = addrPlus s.ip k
  regs : RegsKept [Reg.ip] s t
  skip : t.skip = s.skip
  mem : MemKept s t
  config : SameConfig s t
  count : t.count = s.count
  hostAnswers : t.hostAnswers = s.hostAnswers

/-- Executing `i` in `s` answers a next state with property `P`. -/
def Completes (i : Instr) (s : State) (P : State → Prop) : Prop := ∃ t, exec i s = .next t ∧ P t

/-- Executing `i` in `s` ends the run with error `e`, nothing but IP changed: IP is somewhere in `a .. a + L` (R78, R150, R153; log 5). -/
def Raises (i : Instr) (s : State) (e : ErrCode) : Prop := Completes i s (RunEnds (.error e) i.argLen s)

/-- Checks (1) and (2) of R81: a register byte of 21 or more is ERR_INVALID_REGISTER; else naming IP stops. -/
structure ChecksRegisters (i : Instr) : Prop where
  invalid : i.regsInRange = false → ∀ s, Raises i s .invalidRegister
  ipOperand : i.regsInRange = true → i.namesNoIp = false → ∀ s, exec i s = .fault .refusedIpOperand

/-- Outside a run, `step` takes the host's call `a` from the queue and answers what `f` does to the state, or its refusal. -/
def StepCalls (a : HostAction) (f : State → Except Refusal State) : Prop :=
  ∀ (s : State) (rest : List HostAction), s.phase ≠ .running → s.host = a :: rest →
    (∀ t, f { s with host := rest } = .ok t → step s = .next t) ∧
    (∀ r, f { s with host := rest } = .error r → step s = .refused r)

/-- The word at absolute address `p`, by its bytes, `p` the least significant (R34, R37). -/
def State.wordAt (s : State) (p : Nat) : Nat :=
  (s.byte p).toNat + 2 ^ 8 * (s.byte (p + 1)).toNat + 2 ^ 16 * (s.byte (p + 2)).toNat + 2 ^ 24 * (s.byte (p + 3)).toNat

/-- The bytes of `i` stand in ROM from absolute address `a` on (R50). -/
def State.holdsAt (s : State) (a : Nat) (i : Instr) : Prop :=
  ∀ k (h : k < (encode i).length), s.rom.contains (a + k) = true ∧ s.byte (a + k) = (encode i)[k]

/-- The phase after a counted instruction: PAUSED when a budget is reached (R77). -/
def State.phaseAfterCount (s : State) : Phase :=
  if s.maxInstructions ≠ 0 ∧ s.maxInstructions ≤ s.count + 1 then .stopped .paused else .running

/-- The invariant of the machine: memory is canonical and lists only bytes of a region (R30), the regions are as R19 requires,
and a run with a budget never counts past it (R77). -/
structure State.Inv (s : State) : Prop where
  memWf : s.mem.wf
  memInRegions : ∀ c ∈ s.mem, s.rom.contains c.1 = true ∨ s.ram.contains c.1 = true
  regions : regionsValid s.rom s.ram = true
  budget : s.phase = .running → s.maxInstructions = 0 ∨ s.count < s.maxInstructions
  paused : s.phase = .stopped .paused → s.maxInstructions ≠ 0 ∧ s.count = s.maxInstructions

end Sys2Proof.Machine
end

