-- ==== Sys2Proof/Certificates/Slice0/Obligations.lean ====
section
/-! DEFINITION. The statements about the model, each from the numbered rules of spec/ or the sections it cites. A statement whose
docstring names a decision D<n> or a log entry rests on it there. -/

open Sys2Proof Sys2Proof.Machine

/-! Encoding. -/

/-- R56: the opcode byte alone decides: 26 and above is unknown, too few operand bytes is truncated, anything else is an
instruction made of exactly that opcode byte and those operand bytes. -/
def Obligations.DecodeByOpcodeByteAlone : Prop :=
  opcodeTable.length = 26 ∧
  ∀ (b : Byte) (bs : List Byte),
    (26 ≤ b.toNat → decode (b :: bs) = .error (.unknownOpcode b)) ∧
    ∀ h : b.toNat < opcodeTable.length,
      (bs.length < (opcodeTable[b.toNat]).argLen → decode (b :: bs) = .error (.truncated (opcodeTable[b.toNat]).argLen)) ∧
      ((opcodeTable[b.toNat]).argLen ≤ bs.length →
        ∃ i, decode (b :: bs) = .ok (i, bs.drop (opcodeTable[b.toNat]).argLen) ∧
          encode i = b :: bs.take (opcodeTable[b.toNat]).argLen ∧ i.length = 1 + (opcodeTable[b.toNat]).argLen)

/-- Decoding the bytes of an instruction gives it back, every operand at every value, whatever follows. -/
def Obligations.DecodeInvertsEncode : Prop :=
  ∀ (i : Instr) (rest : List Byte), decode (encode i ++ rest) = .ok (i, rest)

/-- Words written out from the encodings of R95, R110, R111, R118, R134 and R137 (opcode bytes: D1). -/
def Obligations.SampleWordsDecode : Prop :=
  decode [0x03, 0x00, 0x44, 0x33, 0x22, 0x11] = .ok (.lcons 0 0x11223344, []) ∧
  decode [0x09, 0x10, 0x80, 0x02] = .ok (.store 0x8010 2, []) ∧
  decode [0x0A, 0x06, 0x10, 0x80] = .ok (.load 6 0x8010, []) ∧
  decode [0x0E, 0x00, 0x01] = .ok (.div 0 1, []) ∧
  decode [0x16, 0x1E, 0x00] = .ok (.jmp 0x001E, []) ∧
  decode [0x19, 0x14] = .ok (.skipnz 20, [])

/-! The sequencer. -/

/-- A running core with no skip pending executes the instruction whose bytes stand at IP: step is exec, and an instruction
after which the run goes on is counted, the run pausing when its budget is reached (R72, R76, R77; D20). -/
def Obligations.StepRunsInstructionAtIp : Prop :=
  ∀ (i : Instr) (s : State), s.phase = .running → s.skip = false → s.holdsAt s.ip.toNat i →
    (∀ f, exec i s = .fault f → step s = .fault f) ∧
    (∀ r, exec i s = .refused r → step s = .refused r) ∧
    (∀ t, exec i s = .next t → t.phase ≠ .running → step s = .next t) ∧
    (∀ t, exec i s = .next t → t.phase = .running →
      step s = .next { t with count := t.count + 1, phase := t.phaseAfterCount })

/-- R75: with the flag pending, the instruction at IP is consumed whole, whatever it is and whatever its operands: the flag is
cleared, IP moves past it, it is counted against the budget, and nothing else happens. -/
def Obligations.SkipConsumesOneInstruction : Prop :=
  ∀ (i : Instr) (s : State), s.phase = .running → s.skip = true → s.holdsAt s.ip.toNat i →
    ∃ t, step s = .next t ∧ t.skip = false ∧ t.ip = addrPlus s.ip (1 + i.argLen) ∧ t.count = s.count + 1 ∧
      t.phase = s.phaseAfterCount ∧ RegsKept [Reg.ip] s t ∧ MemKept s t ∧ SameConfig s t ∧
      t.hostAnswers = s.hostAnswers ∧ t.draws = s.draws

/-- R73, R74 (D4, D28): the three fetch checks, made before the skip flag is looked at. IP after the failure is unspecified;
where no operand length exists the model leaves it free over the longest one (log 5). -/
def Obligations.FetchChecksEndRun : Prop :=
  ∀ s : State, s.phase = .running →
    (¬ (s.rom.base.toNat ≤ s.ip.toNat ∧ s.ip.toNat < s.rom.base.toNat + s.rom.size) →
      ∃ t, step s = .next t ∧ RunEnds (.error .invalidAddress) maxArgLen s t) ∧
    (s.rom.contains s.ip.toNat = true → 26 ≤ (s.byte s.ip.toNat).toNat →
      ∃ t, step s = .next t ∧ RunEnds (.error .unknownOpcode) maxArgLen s t) ∧
    (∀ o, s.rom.contains s.ip.toNat = true → opcodeTable[(s.byte s.ip.toNat).toNat]? = some o → 0 < o.argLen →
      s.rom.contains (s.ip.toNat + o.argLen) = false →
      ∃ t, step s = .next t ∧ RunEnds (.error .invalidAddress) o.argLen s t)

/-- R77, R182 (D20): an instruction after which the run goes on or pauses costs 1, one that ends the run costs 0. -/
def Obligations.EveryInstructionCostsOne : Prop :=
  ∀ s t : State, s.phase = .running → step s = .next t →
    (t.phase = .running ∨ t.phase = .stopped .paused → t.count = s.count + 1) ∧
    (t.phase = .stopped .finished ∨ (∃ e, t.phase = .stopped (.error e)) → t.count = s.count)

/-- R182: a run whose budget is not 0 is over after at most as many iterations as the budget has left. -/
def Obligations.BudgetedRunReturns : Prop :=
  ∀ s : State, s.phase = .running → s.count < s.maxInstructions →
    ∃ k, k ≤ s.maxInstructions - s.count ∧ ∀ t : State, Host.Core.run core k s = .next t → t.phase ≠ .running

/-! The whole machine. -/

/-- Every step, of the core and of the host, keeps the invariant: memory canonical and listing only bytes of a region, regions
disjoint and in the address space, the counter never past its budget and equal to it at a pause. -/
def Obligations.StepKeepsInvariant : Prop :=
  ∀ s t : State, s.Inv → step s = .next t → t.Inv

/-- The invariant holds after reset. -/
def Obligations.ResetMeetsInvariant : Prop := State.reset.Inv

/-- R18: no instruction and no callback changes a descriptor, the stack hint, the callback slot or the arguments of the run. -/
def Obligations.ConfigurationOnlyByHost : Prop :=
  ∀ s t : State, s.phase = .running → step s = .next t → SameConfig s t

/-- R42, R44: no instruction changes a byte outside RAM, ROM included; SYSCALL is left out, whose callback may rewrite ROM (R93). -/
def Obligations.NoInstructionWritesOutsideRam : Prop :=
  ∀ (i : Instr) (s t : State), i.op ≠ .syscall → s.mem.wf → exec i s = .next t →
    ∀ p, s.ram.contains p = false → t.byte p = s.byte p

/-- R153 (D11): whichever instruction ends a run with an error has changed nothing but IP, which stays in its own bytes. -/
def Obligations.ErrorsArePrecise : Prop :=
  ∀ (i : Instr) (s t : State) (e : ErrCode), s.phase = .running → exec i s = .next t → t.phase = .stopped (.error e) →
    RunEnds (.error e) i.argLen s t

/-- R16: no instruction but SKIPZ and SKIPNZ writes the skip flag. -/
def Obligations.OnlySkipInstructionsWriteSkip : Prop :=
  ∀ (i : Instr) (s t : State), i.op ≠ .skipz → i.op ≠ .skipnz → exec i s = .next t → t.skip = s.skip

/-- R14, R76, R138: every instruction but CALL, RET, JMP and JR after which the run goes on leaves IP at the next instruction. -/
def Obligations.OnlyJumpsLeaveSequence : Prop :=
  ∀ (i : Instr) (s t : State), i.op ≠ .call → i.op ≠ .ret → i.op ≠ .jmp → i.op ≠ .jr →
    s.phase = .running → exec i s = .next t → t.phase = .running → t.ip = addrPlus s.ip i.length

/-- R11, R15, R102: beside IP, an instruction changes only the register it names as destination, RA if it is CALL and SP if it is
PUSH or POP; so OV changes only by name. SYSCALL is left out: its callback may change any register but IP (R93). -/
def Obligations.RegistersChangeOnlyAsNamed : Prop :=
  ∀ (i : Instr) (s t : State) (r : Reg), i.op ≠ .syscall → exec i s = .next t → r ≠ Reg.ip → ¬ i.mayWrite r →
    t.reg r = s.reg r

/-- R17, R18, R170 (D28, D30): no instruction's outcome depends on the counter or the stack hint, and none but POP's on
`program_size`. -/
def Obligations.CountAndHintInvisible : Prop :=
  ∀ (i : Instr) (s t : State) (count hint : Nat), exec i s = .next t →
    exec i { s with count := count, stackSizeHint := hint } = .next { t with count := count, stackSizeHint := hint } ∧
    ∀ size, i.op ≠ .pop → exec i { s with programSize := size } = .next { t with programSize := size }

/-- R136, R137: what SKIPZ and SKIPNZ do to the flag and to IP does not depend on the value of any register but IP. -/
def Obligations.SkipIgnoresRegisterValues : Prop :=
  ∀ (i : Instr) (s t : State) (k : Reg) (v : Word), i.op = .skipz ∨ i.op = .skipnz → k ≠ Reg.ip → exec i s = .next t →
    ∃ t', exec i (s.setReg k v) = .next t' ∧ t'.skip = t.skip ∧ t'.ip = t.ip ∧ t'.phase = t.phase

/-! System and move. -/

/-- R90: NOP changes only IP. -/
def Obligations.NopOnlyAdvances : Prop :=
  encode .nop = [0x00] ∧ ∀ s : State, Completes .nop s (OnlyRegs [] 1 s)

/-- R91: HALT ends the run with FINISHED, IP still addressing it; it is not counted and wins over the budget; skipped it does not
halt; and no `run` follows it (R80). -/
def Obligations.HaltEndsRun : Prop :=
  encode .halt = [0x01] ∧
  (∀ s : State, Completes .halt s fun t => RunEnds .finished 0 s t ∧ t.ip = s.ip) ∧
  (∀ s : State, s.phase = .running → s.holdsAt s.ip.toNat .halt →
    (s.skip = false → ∃ t, step s = .next t ∧ RunEnds .finished 0 s t ∧
      (regionsValid s.rom s.ram = true → ∀ size budget, hostRun size budget t = .error .runAfterStop)) ∧
    (s.skip = true → ∃ t, step s = .next t ∧ t.phase ≠ .stopped .finished))

/-- R92: SYSCALL without a callback raises ERR_UNHANDLED_INTERRUPT before the host is involved; with one, the host's changes
stand and the Boolean decides between the next instruction and FINISHED. The answer is the next of `hostAnswers` or, with none
there, a free value (log 7), and the callback starts from the registers and the memory as they are; a callback that makes a call
it may not make is refused (R93). After the error IP is anywhere in the instruction (R78; log 5). -/
def Obligations.SyscallCallsHost : Prop :=
  ∀ (code : Byte) (s : State),
    encode (.syscall code) = [0x02, code] ∧
    (s.callback = none → Raises (.syscall code) s .unhandledInterrupt) ∧
    (∀ cb, (s.takeAnswer cb code).2.regs = s.regs ∧ (s.takeAnswer cb code).2.mem = s.mem ∧
      ∀ answer rest, s.hostAnswers = answer :: rest →
        (s.takeAnswer cb code).1 = answer ∧ (s.takeAnswer cb code).2.hostAnswers = rest) ∧
    (∀ cb u, s.callback = some cb → callbackCalls (s.takeAnswer cb code).1.acts (s.takeAnswer cb code).2 = .ok u →
      ((s.takeAnswer cb code).1.keepGoing = true → Completes (.syscall code) s fun t =>
        t.ip = addrPlus s.ip 2 ∧ RegsKept [Reg.ip] u t ∧ MemKept u t ∧ t.skip = s.skip ∧ t.phase = s.phase ∧
        t.count = s.count ∧ SameConfig s t) ∧
      ((s.takeAnswer cb code).1.keepGoing = false → Completes (.syscall code) s fun t =>
        RunEnds .finished 1 u t ∧ t.skip = s.skip ∧ t.count = s.count ∧ SameConfig s t)) ∧
    (∀ cb r, s.callback = some cb → callbackCalls (s.takeAnswer cb code).1.acts (s.takeAnswer cb code).2 = .error r →
      exec (.syscall code) s = .refused r)

/-- R47, R93, R160, R161, R162 (D21; logs 19 and 22): whatever calls a callback makes, IP, the skip flag, the run and the configuration
stay. A permitted call does what the same call does between runs, in order; IP alone reads otherwise, as a free value (log 22).
`run`, `initialize`, a registration and a write of IP are refused wherever they stand, and a refused call ends them all. -/
def Obligations.CallbackPowersBounded : Prop :=
  (∀ (acts : List HostAction) (s t : State), callbackCalls acts s = .ok t →
    t.ip = s.ip ∧ t.skip = s.skip ∧ SameConfig s t ∧ SameRun s t) ∧
  (∀ s : State,
    (∀ id v, id ≠ 16 → callbackCalls [.setRegister id v] s = hostSetRegister id v s) ∧
    (∀ v, callbackCalls [.rawPush v] s = hostRawPush v s) ∧
    callbackCalls [.rawPop] s = (hostRawPop s).map Prod.snd ∧
    (∀ p b, callbackCalls [.writeByte p b] s = hostWriteByte p b s) ∧
    (∀ p, callbackCalls [.memory p] s = (hostMemory p s).map fun _ => s) ∧
    (∀ id, callbackCalls [.getRegister id] s = (callbackGetRegister id s).map fun _ => s) ∧
    (∀ id, id ≠ 16 → callbackGetRegister id s = hostGetRegister id s) ∧
    callbackGetRegister 16 s = .ok (Config.callbackIp s.draws)) ∧
  ∀ (acts rest : List HostAction) (s : State),
    (∀ r, callbackCalls acts s = .error r → callbackCalls (acts ++ rest) s = .error r) ∧
    ∀ t, callbackCalls acts s = .ok t →
      callbackCalls (acts ++ rest) s = callbackCalls rest t ∧
      (∀ rom ram buffer n, callbackCalls (acts ++ .bind rom ram buffer n :: rest) s = .error .notPermittedInCallback) ∧
      (∀ size budget, callbackCalls (acts ++ .run size budget :: rest) s = .error .notPermittedInCallback) ∧
      (∀ cb, callbackCalls (acts ++ .register cb :: rest) s = .error .notPermittedInCallback) ∧
      (∀ v, callbackCalls (acts ++ .setRegister 16 v :: rest) s = .error .notPermittedInCallback)

/-- R95: LCONS puts the 32-bit constant in the register, whichever it is but IP. -/
def Obligations.LconsLoadsConstant : Prop :=
  (∀ r v, encode (.lcons r v) = [0x03, r, v.extractLsb' 0 8, v.extractLsb' 8 8, v.extractLsb' 16 8, v.extractLsb' 24 8] ∧
    ChecksRegisters (.lcons r v)) ∧
  ∀ (r : Reg) (v : Word) (s : State), r ≠ Reg.ip →
    Completes (.lcons r.field v) s fun t => t.reg r = v ∧ OnlyRegs [r] 6 s t

/-- R96: MOV copies all 32 bits; source and destination may be the same register. -/
def Obligations.MovCopiesRegister : Prop :=
  (∀ d r, encode (.mov d r) = [0x04, d, r] ∧ ChecksRegisters (.mov d r)) ∧
  ∀ (d r : Reg) (s : State), d ≠ Reg.ip → r ≠ Reg.ip →
    Completes (.mov d.field r.field) s fun t => t.reg d = s.reg r ∧ OnlyRegs [d] 3 s t

/-! Stack, subroutines, memory. -/

/-- R100 (D5, D9, D10): PUSH; after PUSH SP the slot holds the decremented value. -/
def Obligations.PushStoresBelowSp : Prop :=
  (∀ r, encode (.push r) = [0x05, r] ∧ ChecksRegisters (.push r)) ∧
  ∀ (r : Reg) (s : State), r ≠ Reg.ip →
    (s.sp.toNat < 4 → Raises (.push r.field) s .stackOverflow) ∧
    (4 ≤ s.sp.toNat → s.ram.size < s.sp.toNat → exec (.push r.field) s = .fault .unspecStackRange) ∧
    (4 ≤ s.sp.toNat → s.sp.toNat ≤ s.ram.size → s.mem.wf → Completes (.push r.field) s fun t =>
      t.sp.toNat = s.sp.toNat - 4 ∧
      StoresWord (s.ram.base.toNat + (s.sp.toNat - 4)) (if r = Reg.sp then s.sp - 4 else s.reg r) s t ∧
      t.ip = addrPlus s.ip 2 ∧ RegsKept [Reg.ip, Reg.sp] s t ∧ t.skip = s.skip ∧ SameConfig s t ∧ SameRun s t)

/-- R101 (D5, D9): POP; underflow before the program-size guard; after POP SP, SP is the slot's value plus 4. -/
def Obligations.PopReadsAtSp : Prop :=
  (∀ r, encode (.pop r) = [0x06, r] ∧ ChecksRegisters (.pop r)) ∧
  ∀ (r : Reg) (s : State), r ≠ Reg.ip →
    (s.ram.size < s.sp.toNat + 4 → Raises (.pop r.field) s .stackUnderflow) ∧
    (s.sp.toNat + 4 ≤ s.ram.size → s.sp.toNat + 4 < s.programSize → Raises (.pop r.field) s .stackOverflow) ∧
    (s.sp.toNat + 4 ≤ s.ram.size → s.programSize ≤ s.sp.toNat + 4 → Completes (.pop r.field) s fun t =>
      (r ≠ Reg.sp → (t.reg r).toNat = s.wordAt (s.ram.base.toNat + s.sp.toNat) ∧
        t.sp.toNat = (s.sp.toNat + 4) % 2 ^ 32) ∧
      (r = Reg.sp → t.sp.toNat = (s.wordAt (s.ram.base.toNat + s.sp.toNat) + 4) % 2 ^ 32) ∧
      OnlyRegs [r, Reg.sp] 2 s t)

/-- R101's property: PUSH r then POP r2 gives r2 the value of r before the push and restores SP, RAM having kept it in between. -/
def Obligations.PushThenPopRestores : Prop :=
  ∀ (r k : Reg) (s : State), r ≠ Reg.ip → r ≠ Reg.sp → k ≠ Reg.ip → k ≠ Reg.sp → s.mem.wf →
    4 ≤ s.sp.toNat → s.sp.toNat ≤ s.ram.size → s.programSize ≤ s.sp.toNat →
    ∃ t u, exec (.push r.field) s = .next t ∧ exec (.pop k.field) t = .next u ∧ u.reg k = s.reg r ∧ u.sp = s.sp

/-- R105 (D13): CALL checks its target, links the address after its three bytes and jumps. After ERR_INVALID_ADDRESS nothing but IP
has changed, and IP is anywhere in the CALL (R78, D19, C11; log 5), where R105 reads "unchanged". -/
def Obligations.CallLinksAndJumps : Prop :=
  (∀ t : Addr, encode (.call t) = [0x07, t.extractLsb' 0 8, t.extractLsb' 8 8]) ∧
  ∀ (p : Addr) (s : State),
    (s.rom.contains p.toNat = true → Completes (.call p) s fun t =>
      t.reg Reg.ra = addrPlus s.ip 3 ∧ JumpsTo (BitVec.ofNat 32 p.toNat) [Reg.ra] s t) ∧
    (s.rom.contains p.toNat = false → Raises (.call p) s .invalidAddress)

/-- R106 (D13): RET takes all 32 bits of RA, unchecked. -/
def Obligations.RetJumpsToRa : Prop :=
  encode .ret = [0x08] ∧ ∀ s : State, Completes .ret s (JumpsTo (s.reg Reg.ra) [] s)

/-- R110 (D6, D7, D8, D27): STORE writes four bytes of RAM, least significant first, at any alignment; any byte outside RAM is
ERR_INVALID_ADDRESS. -/
def Obligations.StoreWritesRam : Prop :=
  (∀ (p : Addr) r, encode (.store p r) = [0x09, p.extractLsb' 0 8, p.extractLsb' 8 8, r] ∧ ChecksRegisters (.store p r)) ∧
  ∀ (p : Addr) (r : Reg) (s : State), r ≠ Reg.ip →
    (s.ram.base.toNat ≤ p.toNat ∧ p.toNat + 4 ≤ s.ram.base.toNat + s.ram.size → s.mem.wf →
      Completes (.store p r.field) s fun t => StoresWord p.toNat (s.reg r) s t ∧
        t.ip = addrPlus s.ip 4 ∧ RegsKept [Reg.ip] s t ∧ t.skip = s.skip ∧ SameConfig s t ∧ SameRun s t) ∧
    (¬ (s.ram.base.toNat ≤ p.toNat ∧ p.toNat + 4 ≤ s.ram.base.toNat + s.ram.size) →
      Raises (.store p r.field) s .invalidAddress)

/-- R111 (D6, D7, D8, D27): LOAD reads four bytes of RAM; an address in ROM is rejected. -/
def Obligations.LoadReadsRam : Prop :=
  (∀ r (p : Addr), encode (.load r p) = [0x0A, r, p.extractLsb' 0 8, p.extractLsb' 8 8] ∧ ChecksRegisters (.load r p)) ∧
  ∀ (r : Reg) (p : Addr) (s : State), r ≠ Reg.ip →
    (s.ram.base.toNat ≤ p.toNat ∧ p.toNat + 4 ≤ s.ram.base.toNat + s.ram.size →
      Completes (.load r.field p) s fun t => (t.reg r).toNat = s.wordAt p.toNat ∧ OnlyRegs [r] 4 s t) ∧
    (¬ (s.ram.base.toNat ≤ p.toNat ∧ p.toNat + 4 ≤ s.ram.base.toNat + s.ram.size) →
      Raises (.load r.field p) s .invalidAddress)

/-- R43, R110, R111 (D7): a LOAD from the address of the STORE before it returns the stored word. -/
def Obligations.StoreThenLoadReturnsWord : Prop :=
  ∀ (p : Addr) (r k : Reg) (s : State), r ≠ Reg.ip → k ≠ Reg.ip → s.mem.wf → s.ram.containsWord p.toNat = true →
    ∃ t u, exec (.store p r.field) s = .next t ∧ exec (.load k.field p) t = .next u ∧ u.reg k = s.reg r

/-! Arithmetic, shifts, logic. -/

/-- R115, R116, R117: ADD, SUB and MUL are arithmetic modulo 2^32; no carry, borrow or overflow is recorded anywhere, OV included. -/
def Obligations.AddSubMulModulo : Prop :=
  (∀ d r, encode (.add d r) = [0x0B, d, r] ∧ encode (.sub d r) = [0x0C, d, r] ∧ encode (.mul d r) = [0x0D, d, r] ∧
    ChecksRegisters (.add d r) ∧ ChecksRegisters (.sub d r) ∧ ChecksRegisters (.mul d r)) ∧
  ∀ (d r : Reg) (s : State), d ≠ Reg.ip → r ≠ Reg.ip →
    (Completes (.add d.field r.field) s fun t =>
      (t.reg d).toNat = ((s.reg d).toNat + (s.reg r).toNat) % 2 ^ 32 ∧ OnlyRegs [d] 3 s t) ∧
    (Completes (.sub d.field r.field) s fun t =>
      ((t.reg d).toNat : Int) = ((s.reg d).toNat - (s.reg r).toNat : Int) % 2 ^ 32 ∧ OnlyRegs [d] 3 s t) ∧
    (Completes (.mul d.field r.field) s fun t =>
      (t.reg d).toNat = ((s.reg d).toNat * (s.reg r).toNat) % 2 ^ 32 ∧ OnlyRegs [d] 3 s t)

/-- R118 (D15): DIV is the floor of the unsigned quotient; a zero divisor is the model fault. -/
def Obligations.DivFloorsOrStops : Prop :=
  (∀ d r, encode (.div d r) = [0x0E, d, r] ∧ ChecksRegisters (.div d r)) ∧
  ∀ (d r : Reg) (s : State), d ≠ Reg.ip → r ≠ Reg.ip →
    (s.reg r ≠ 0 → Completes (.div d.field r.field) s fun t =>
      (t.reg d).toNat = (s.reg d).toNat / (s.reg r).toNat ∧ OnlyRegs [d] 3 s t) ∧
    (s.reg r = 0 → exec (.div d.field r.field) s = .fault .undefinedDivByZero)

/-- R122, R123: SHL and SHR by 0 to 31 on integers; by more, the open function `shift_oob`, the instruction still completing. -/
def Obligations.LogicalShifts : Prop :=
  (∀ d r, encode (.shl d r) = [0x0F, d, r] ∧ encode (.shr d r) = [0x10, d, r] ∧
    ChecksRegisters (.shl d r) ∧ ChecksRegisters (.shr d r)) ∧
  ∀ (d r : Reg) (s : State), d ≠ Reg.ip → r ≠ Reg.ip →
    (Completes (.shl d.field r.field) s fun t => OnlyRegs [d] 3 s t ∧
      ((s.reg r).toNat ≤ 31 → (t.reg d).toNat = (s.reg d).toNat * 2 ^ (s.reg r).toNat % 2 ^ 32) ∧
      (31 < (s.reg r).toNat → t.reg d = Config.shiftOob .shl (s.reg d) (s.reg r))) ∧
    (Completes (.shr d.field r.field) s fun t => OnlyRegs [d] 3 s t ∧
      ((s.reg r).toNat ≤ 31 → (t.reg d).toNat = (s.reg d).toNat / 2 ^ (s.reg r).toNat) ∧
      (31 < (s.reg r).toNat → t.reg d = Config.shiftOob .shr (s.reg d) (s.reg r)))

/-- R124 (log 17: two's complement and sign replication are the spec's general knowledge, K1 and K2): ISHR by n at most 31 moves
bit j+n to bit j and fills with bit 31; by more, `shift_oob`. -/
def Obligations.ArithmeticShiftReplicatesSign : Prop :=
  (∀ d r, encode (.ishr d r) = [0x11, d, r] ∧ ChecksRegisters (.ishr d r)) ∧
  ∀ (d r : Reg) (s : State), d ≠ Reg.ip → r ≠ Reg.ip →
    Completes (.ishr d.field r.field) s fun t => OnlyRegs [d] 3 s t ∧
      ((s.reg r).toNat ≤ 31 → ∀ j, j < 32 → (t.reg d).getLsbD j =
        if j + (s.reg r).toNat < 32 then (s.reg d).getLsbD (j + (s.reg r).toNat) else (s.reg d).getLsbD 31) ∧
      (31 < (s.reg r).toNat → t.reg d = Config.shiftOob .ishr (s.reg d) (s.reg r))

/-- R128, R129, R130: AND, OR and XOR, bit by bit. -/
def Obligations.BitwiseLogic : Prop :=
  (∀ d r, encode (.and d r) = [0x12, d, r] ∧ encode (.or d r) = [0x13, d, r] ∧ encode (.xor d r) = [0x14, d, r] ∧
    ChecksRegisters (.and d r) ∧ ChecksRegisters (.or d r) ∧ ChecksRegisters (.xor d r)) ∧
  ∀ (d r : Reg) (s : State), d ≠ Reg.ip → r ≠ Reg.ip →
    (Completes (.and d.field r.field) s fun t => OnlyRegs [d] 3 s t ∧
      ∀ j, j < 32 → (t.reg d).getLsbD j = ((s.reg d).getLsbD j && (s.reg r).getLsbD j)) ∧
    (Completes (.or d.field r.field) s fun t => OnlyRegs [d] 3 s t ∧
      ∀ j, j < 32 → (t.reg d).getLsbD j = ((s.reg d).getLsbD j || (s.reg r).getLsbD j)) ∧
    (Completes (.xor d.field r.field) s fun t => OnlyRegs [d] 3 s t ∧
      ∀ j, j < 32 → (t.reg d).getLsbD j = ((s.reg d).getLsbD j ^^ (s.reg r).getLsbD j))

/-- R131: NOT inverts every one of the 32 bits in place. -/
def Obligations.NotComplements : Prop :=
  (∀ d, encode (.not d) = [0x15, d] ∧ ChecksRegisters (.not d)) ∧
  ∀ (d : Reg) (s : State), d ≠ Reg.ip →
    Completes (.not d.field) s fun t => OnlyRegs [d] 2 s t ∧
      (t.reg d).toNat = 0xFFFFFFFF - (s.reg d).toNat ∧ ∀ j, j < 32 → (t.reg d).getLsbD j = !(s.reg d).getLsbD j

/-! Jumps and skips. -/

/-- R134 (D13): JMP checks its target in ROM and jumps to it. After ERR_INVALID_ADDRESS nothing but IP has changed, and IP is anywhere
in the JMP (R78, D19, C11; log 5), where R134 reads "unchanged". -/
def Obligations.JmpChecksTarget : Prop :=
  (∀ t : Addr, encode (.jmp t) = [0x16, t.extractLsb' 0 8, t.extractLsb' 8 8]) ∧
  ∀ (p : Addr) (s : State),
    (s.rom.contains p.toNat = true → Completes (.jmp p) s (JumpsTo (BitVec.ofNat 32 p.toNat) [] s)) ∧
    (s.rom.contains p.toNat = false → Raises (.jmp p) s .invalidAddress)

/-- R135 (D13): JR takes the low 16 bits of the register, unchecked, and changes no register but IP. -/
def Obligations.JrTakesLowBits : Prop :=
  (∀ r, encode (.jr r) = [0x17, r] ∧ ChecksRegisters (.jr r)) ∧
  ∀ (r : Reg) (s : State), r ≠ Reg.ip →
    Completes (.jr r.field) s (JumpsTo (BitVec.ofNat 32 ((s.reg r).toNat % 65536)) [] s)

/-- R136, R137: SKIPZ and SKIPNZ decide on the register id, not its content. -/
def Obligations.SkipTestsRegisterId : Prop :=
  (∀ r, encode (.skipz r) = [0x18, r] ∧ encode (.skipnz r) = [0x19, r] ∧
    ChecksRegisters (.skipz r) ∧ ChecksRegisters (.skipnz r)) ∧
  ∀ (r : Reg) (s : State), r ≠ Reg.ip →
    (Completes (.skipz r.field) s fun t => (t.skip = true ↔ r.val = 0) ∧ t.ip = addrPlus s.ip 2 ∧
      RegsKept [Reg.ip] s t ∧ MemKept s t ∧ SameConfig s t ∧ SameRun s t) ∧
    (Completes (.skipnz r.field) s fun t => (t.skip = true ↔ r.val ≠ 0) ∧ t.ip = addrPlus s.ip 2 ∧
      RegsKept [Reg.ip] s t ∧ MemKept s t ∧ SameConfig s t ∧ SameRun s t)

/-! Reset and the host. -/

/-- R22, R23, R170 (D17, D29; the ROM buffer as an argument is log 20): what `initialize` leaves, from any state outside a run. -/
def Obligations.InitializeSetsResetValues : Prop :=
  ∀ (s : State) (rom ram : Region) (buffer : List Byte) (hint : Nat) (rest : List HostAction),
    s.phase ≠ .running → s.host = .bind rom ram buffer hint :: rest → regionsValid rom ram = true → buffer.length = rom.size →
    ∃ t, step s = .next t ∧ t.rom = rom ∧ t.ram = ram ∧ t.stackSizeHint = hint ∧ t.skip = false ∧ t.phase = .ready ∧
      t.callback = s.callback ∧ t.host = rest ∧ t.sp = BitVec.ofNat 32 ram.size ∧ (∀ r, r ≠ Reg.sp → t.reg r = 0) ∧
      (∀ p, ram.contains p = true → t.byte p = 0) ∧
      (∀ k (h : k < buffer.length), t.byte (rom.base.toNat + k) = buffer[k])

/-- R19, R172 (D3, D26): overlapping regions, and a region reaching past 0xFFFF, are refused. -/
def Obligations.BadRegionsRefused : Prop :=
  ∀ (s : State) (rom ram : Region) (buffer : List Byte) (hint : Nat) (rest : List HostAction),
    s.phase ≠ .running → s.host = .bind rom ram buffer hint :: rest →
    65536 < rom.base.toNat + rom.size ∨ 65536 < ram.base.toNat + ram.size ∨
      (∃ p, rom.contains p = true ∧ ram.contains p = true) →
    step s = .refused .regionsInvalid

/-- R22, R23 on the platform of log 1 (R41, D3): the state after reset. ROM bytes are the model's choice and are not stated. -/
def Obligations.ResetState : Prop :=
  State.reset.sp = 0x100 ∧ (∀ r, r ≠ Reg.sp → State.reset.reg r = 0) ∧ State.reset.skip = false ∧
  State.reset.callback = none ∧ (∀ p, State.reset.ram.contains p = true → State.reset.byte p = 0)

/-- R70, R79, R80, R83 (D18, D19; log 9): `run` starts with count 0 and a pending flag only if flags persist; after FINISHED or an
error it is refused. -/
def Obligations.RunStartsOrIsRefused : Prop :=
  ∀ (s : State) (size budget : Nat) (rest : List HostAction),
    s.host = .run size budget :: rest → regionsValid s.rom s.ram = true →
    (s.phase = .ready ∨ s.phase = .stopped .paused →
      ∃ t, step s = .next t ∧ t.phase = .running ∧ t.programSize = size ∧ t.maxInstructions = budget ∧ t.count = 0 ∧
        t.skip = (s.skip && Config.skipPersistsAcrossRun) ∧ (∀ r, t.reg r = s.reg r) ∧ MemKept s t ∧ t.rom = s.rom ∧
        t.ram = s.ram ∧ t.callback = s.callback ∧ t.stackSizeHint = s.stackSizeHint ∧ t.host = rest) ∧
    (s.phase = .stopped .finished ∨ (∃ e, s.phase = .stopped (.error e)) → step s = .refused .runAfterStop)

/-- R160 (D19, D21, D31; logs 4 and 19): reading and writing a register by id; an id of 21 or more is refused (D31, log 19); writing
IP makes a `run` possible again after FINISHED or an error (D19), and inside the callback it is refused (D21, log 19). That a step
outside a run takes the host's call from the queue and does just that is the model's DESIGN CHOICE (log 4). -/
def Obligations.HostRegisterAccess : Prop :=
  (∀ id, StepCalls (.getRegister id) fun s => (hostGetRegister id s).map fun _ => s) ∧
  (∀ id v, StepCalls (.setRegister id v) (hostSetRegister id v)) ∧
  ∀ s : State,
    (∀ r : Reg, hostGetRegister r.val s = .ok (s.reg r)) ∧
    (∀ (r : Reg) (v : Word), ∃ t, hostSetRegister r.val v s = .ok t ∧ t.reg r = v ∧ RegsKept [r] s t ∧ MemKept s t ∧
      t.skip = s.skip ∧ SameConfig s t ∧ (r ≠ Reg.ip → t.phase = s.phase)) ∧
    (∀ id v, 21 ≤ id → hostGetRegister id s = .error .registerIdOutOfRange ∧
      hostSetRegister id v s = .error .registerIdOutOfRange) ∧
    (∀ (v : Word) size budget, s.phase ≠ .running → regionsValid s.rom s.ram = true →
      ∃ t u, hostSetRegister 16 v s = .ok t ∧ t.ip = v ∧ hostRun size budget t = .ok u ∧ u.ip = v) ∧
    (∀ v, callbackCall (.setRegister 16 v) s = .error .notPermittedInCallback)

/-- R161 (D31): the raw stack helpers move SP by 4 and the word at the slot, and are refused when the slot leaves RAM.
Between runs, a step takes the host's call and does just that. -/
def Obligations.RawStackHelpers : Prop :=
  (∀ v, StepCalls (.rawPush v) (hostRawPush v)) ∧ (StepCalls .rawPop fun s => (hostRawPop s).map Prod.snd) ∧
  ∀ s : State, s.mem.wf →
    (∀ v, 4 ≤ s.sp.toNat ∧ s.sp.toNat ≤ s.ram.size →
      ∃ t, hostRawPush v s = .ok t ∧ t.sp.toNat = s.sp.toNat - 4 ∧ RegsKept [Reg.sp] s t ∧
        StoresWord (s.ram.base.toNat + (s.sp.toNat - 4)) v s t ∧ t.skip = s.skip ∧ SameConfig s t ∧ SameRun s t) ∧
    (∀ v, ¬ (4 ≤ s.sp.toNat ∧ s.sp.toNat ≤ s.ram.size) → hostRawPush v s = .error .rawStackOutsideRam) ∧
    (s.sp.toNat + 4 ≤ s.ram.size →
      ∃ v t, hostRawPop s = .ok (v, t) ∧ v.toNat = s.wordAt (s.ram.base.toNat + s.sp.toNat) ∧
        t.sp.toNat = (s.sp.toNat + 4) % 2 ^ 32 ∧ RegsKept [Reg.sp] s t ∧ MemKept s t ∧ t.skip = s.skip ∧
        SameConfig s t ∧ SameRun s t) ∧
    (s.ram.size < s.sp.toNat + 4 → hostRawPop s = .error .rawStackOutsideRam)

/-- R40 (D31): `memory(addr)` finds ROM first, then RAM; the fallback for an unmapped address is refused.
Between runs, a step takes the host's call, and the state stays. -/
def Obligations.MemoryTranslatesAddress : Prop :=
  (∀ p, StepCalls (.memory p) fun s => (hostMemory p s).map fun _ => s) ∧
  ∀ (s : State) (p : Addr),
    (s.rom.contains p.toNat = true → ∃ k, hostMemory p s = .ok (.rom k) ∧ s.rom.base.toNat + k = p.toNat ∧ k < s.rom.size) ∧
    (s.rom.contains p.toNat = false → s.ram.contains p.toNat = true →
      ∃ k, hostMemory p s = .ok (.ram k) ∧ s.ram.base.toNat + k = p.toNat ∧ k < s.ram.size) ∧
    (s.rom.contains p.toNat = false → s.ram.contains p.toNat = false → hostMemory p s = .error .addressUnmapped)

/-- R44, R47: a byte the host writes between runs or in the callback, in ROM or in RAM, is what the next access finds, and no other
byte changes. That a write at an address in neither region is refused is the model's DESIGN CHOICE (log 19). -/
def Obligations.HostWriteVisible : Prop :=
  ∀ (s : State) (p : Addr) (b : Byte), s.mem.wf →
    (∀ rest, s.phase ≠ .running → s.host = .writeByte p b :: rest →
      (s.rom.contains p.toNat = true ∨ s.ram.contains p.toNat = true →
        ∃ t, step s = .next t ∧ t.byte p.toNat = b ∧ MemKeptOutside p.toNat 1 s t ∧ t.regs = s.regs ∧ t.skip = s.skip ∧
          SameConfig { s with host := rest } t ∧ SameRun s t) ∧
      (s.rom.contains p.toNat = false → s.ram.contains p.toNat = false → step s = .refused .addressUnmapped)) ∧
    (s.rom.contains p.toNat = true ∨ s.ram.contains p.toNat = true →
      ∃ t, callbackCalls [.writeByte p b] s = .ok t ∧ t.byte p.toNat = b ∧ MemKeptOutside p.toNat 1 s t ∧ t.regs = s.regs) ∧
    (s.rom.contains p.toNat = false → s.ram.contains p.toNat = false →
      callbackCalls [.writeByte p b] s = .error .addressUnmapped)

/-- R162: registration replaces the slot's content, or empties it, and changes nothing else; the call is taken from the host's
queue (log 4), and a callback is held by a number (log 7). -/
def Obligations.RegistrationReplacesCallback : Prop :=
  ∀ (s : State) (cb : Option Nat) (rest : List HostAction), s.phase ≠ .running → s.host = .register cb :: rest →
    step s = .next { s with callback := cb, host := rest }
end

