-- ==== Sys2Proof/Laws/Memory.lean ====
section
/-! SUPPORT. Reading after writing, and that every memory operation keeps the canonical form. -/

namespace Sys2Proof.Machine

theorem Memory.wf_nil : Memory.wf [] := by simp [Memory.wf]

/-- The canonical form of a non-empty list. -/
theorem Memory.wf_cons {q : Nat} {c : Byte} {m : Memory} :
    Memory.wf ((q, c) :: m) ↔ (∀ x ∈ m, q < x.1) ∧ c ≠ Memory.unlisted ∧ Memory.wf m := by
  simp only [Memory.wf, List.pairwise_cons, List.forall_mem_cons]
  tauto

/-- Below every listed address nothing is listed. -/
theorem Memory.read_of_lt {m : Memory} {p : Nat} (h : ∀ x ∈ m, p < x.1) : m.read p = Memory.unlisted := by
  induction m with
  | nil => rfl
  | cons x m ih =>
    obtain ⟨q, c⟩ := x
    have hq : p < q := h (q, c) (by simp)
    simp only [Memory.read, if_neg (Nat.ne_of_gt hq)]
    exact ih fun y hy => h y (by simp [hy])

theorem Memory.read_consCell {m : Memory} {p : Nat} (b : Byte) (h : ∀ x ∈ m, p < x.1) (k : Nat) :
    (Memory.consCell p b m).read k = if k = p then b else m.read k := by
  unfold Memory.consCell
  split
  · split
    · subst_vars
      exact Memory.read_of_lt h
    · rfl
  · simp only [Memory.read, eq_comm]

/-- A read after a write gives the byte written there and what it gave elsewhere. -/
theorem Memory.read_write {m : Memory} (hm : m.wf) (p : Nat) (b : Byte) (k : Nat) :
    (m.write p b).read k = if k = p then b else m.read k := by
  induction m with
  | nil => exact Memory.read_consCell b (by simp) k
  | cons x m ih =>
    obtain ⟨q, c⟩ := x
    obtain ⟨hlt, -, hm⟩ := Memory.wf_cons.1 hm
    simp only [Memory.write]
    split
    · rename_i hpq
      exact Memory.read_consCell b (by
        intro y hy
        rcases List.mem_cons.1 hy with rfl | hy
        · exact hpq
        · exact Nat.lt_trans hpq (hlt y hy)) k
    · split
      · rename_i hpq
        subst hpq
        rw [Memory.read_consCell b hlt]
        simp only [Memory.read]
        split <;> simp_all [eq_comm]
      · rename_i hlt' hne
        simp only [Memory.read, ih hm]
        by_cases hk : k = p
        · subst hk
          simp [Ne.symm hne]
        · simp [hk]

theorem Memory.mem_consCell {m : Memory} {p : Nat} {b : Byte} {x : Host.Cell} (h : x ∈ Memory.consCell p b m) :
    x.1 = p ∨ x ∈ m := by
  unfold Memory.consCell at h
  split at h
  · exact .inr h
  · rcases List.mem_cons.1 h with rfl | h
    · exact .inl rfl
    · exact .inr h

/-- What a written memory lists: the address written and what it listed. -/
theorem Memory.mem_write {m : Memory} {p : Nat} {b : Byte} {x : Host.Cell} (h : x ∈ m.write p b) : x.1 = p ∨ x ∈ m := by
  induction m with
  | nil => exact Memory.mem_consCell h
  | cons y m ih =>
    obtain ⟨q, c⟩ := y
    simp only [Memory.write] at h
    split at h
    · exact Memory.mem_consCell h
    · split at h
      · rcases Memory.mem_consCell h with h | h
        · exact .inl h
        · exact .inr (by simp [h])
      · rcases List.mem_cons.1 h with rfl | h
        · exact .inr (by simp)
        · rcases ih h with h | h
          · exact .inl h
          · exact .inr (by simp [h])

theorem Memory.wf_consCell {m : Memory} {p : Nat} (b : Byte) (h : ∀ x ∈ m, p < x.1) (hm : m.wf) :
    (Memory.consCell p b m).wf := by
  unfold Memory.consCell
  split
  · exact hm
  · exact Memory.wf_cons.2 ⟨h, ‹_›, hm⟩

/-- Writing a byte keeps the canonical form. -/
theorem Memory.wf_write {m : Memory} (hm : m.wf) (p : Nat) (b : Byte) : (m.write p b).wf := by
  induction m with
  | nil => exact Memory.wf_consCell b (by simp) hm
  | cons x m ih =>
    obtain ⟨q, c⟩ := x
    obtain ⟨hlt, hc, htail⟩ := Memory.wf_cons.1 hm
    simp only [Memory.write]
    split
    · rename_i hpq
      exact Memory.wf_consCell b (by
        intro y hy
        rcases List.mem_cons.1 hy with rfl | hy
        · exact hpq
        · exact Nat.lt_trans hpq (hlt y hy)) hm
    · split
      · rename_i hpq
        subst hpq
        exact Memory.wf_consCell b hlt htail
      · rename_i hnlt hne
        refine Memory.wf_cons.2 ⟨fun y hy => ?_, hc, ih htail⟩
        rcases Memory.mem_write hy with h | h
        · omega
        · exact hlt y h

theorem Memory.wf_load {m : Memory} (hm : m.wf) (p : Nat) (bs : List Byte) : (m.load p bs).wf := by
  induction bs generalizing m p with
  | nil => exact hm
  | cons b bs ih => exact ih (Memory.wf_write hm p b) (p + 1)

/-- Loading bytes keeps the canonical form and lists nothing outside their addresses. -/
theorem Memory.mem_load {m : Memory} {p : Nat} {bs : List Byte} {x : Host.Cell} (h : x ∈ m.load p bs) :
    (p ≤ x.1 ∧ x.1 < p + bs.length) ∨ x ∈ m := by
  induction bs generalizing m p with
  | nil => exact .inr h
  | cons b bs ih =>
    simp only [List.length_cons]
    rcases ih h with h | h
    · exact .inl (by omega)
    · rcases Memory.mem_write h with h | h
      · exact .inl (by omega)
      · exact .inr h

/-- A byte read after loading `bs` at `p`. -/
theorem Memory.read_load {m : Memory} (hm : m.wf) (p : Nat) (bs : List Byte) (k : Nat) :
    (m.load p bs).read k = if h : p ≤ k ∧ k < p + bs.length then bs[k - p] else m.read k := by
  induction bs generalizing m p with
  | nil => simp [Memory.load]
  | cons b bs ih =>
    rw [Memory.load, ih (Memory.wf_write hm p b), Memory.read_write hm]
    by_cases hk : k = p
    · subst hk
      simp
    · by_cases hin : p + 1 ≤ k ∧ k < p + 1 + bs.length
      · have h2 : p ≤ k ∧ k < p + (b :: bs).length := by simp; omega
        have h3 : k - p = (k - (p + 1)) + 1 := by omega
        simp only [dif_pos hin, dif_pos h2, h3, List.getElem_cons_succ]
      · have h2 : ¬ (p ≤ k ∧ k < p + (b :: bs).length) := by simp; omega
        simp only [dif_neg hin, dif_neg h2, if_neg hk]

theorem Memory.wf_writeWord {m : Memory} (hm : m.wf) (p : Nat) (v : Word) : (m.writeWord p v).wf := Memory.wf_load hm p _

theorem Memory.mem_writeWord {m : Memory} {p : Nat} {v : Word} {x : Host.Cell} (h : x ∈ m.writeWord p v) :
    (p ≤ x.1 ∧ x.1 < p + 4) ∨ x ∈ m := Memory.mem_load h

/-- A byte outside a stored word reads as before. -/
theorem Memory.read_writeWord_outside {m : Memory} (hm : m.wf) {p q : Nat} (v : Word) (h : q < p ∨ p + 4 ≤ q) :
    (m.writeWord p v).read q = m.read q := by
  rw [Memory.writeWord, Memory.read_load hm, dif_neg]
  simp only [List.length_cons, List.length_nil]
  omega

/-- Byte `k` of a stored word. -/
theorem Memory.read_writeWord_byte {m : Memory} (hm : m.wf) (p : Nat) (v : Word) {k : Nat} (hk : k < 4) :
    (m.writeWord p v).read (p + k) = wordByte v k := by
  rw [Memory.writeWord, Memory.read_load hm, dif_pos (by simp; omega)]
  interval_cases k <;> simp

/-- A word read as a number is its bytes by weight (R34). -/
theorem Memory.readWord_toNat (m : Memory) (p : Nat) :
    (m.readWord p).toNat =
      (m.read p).toNat + 2 ^ 8 * (m.read (p + 1)).toNat + 2 ^ 16 * (m.read (p + 2)).toNat + 2 ^ 24 * (m.read (p + 3)).toNat := by
  have h0 := (m.read p).isLt
  have h1 := (m.read (p + 1)).isLt
  have h2 := (m.read (p + 2)).isLt
  have h3 := (m.read (p + 3)).isLt
  simp only [Memory.readWord, BitVec.toNat_ofNat]
  omega

/-- Byte `k` of a word as a number. -/
theorem wordByte_toNat (v : Word) (k : Nat) : (wordByte v k).toNat = v.toNat / 2 ^ (8 * k) % 2 ^ 8 := by
  simp [wordByte, Nat.shiftRight_eq_div_pow]

/-- A word read back where it was stored is the word (R34, R35). -/
theorem Memory.readWord_writeWord {m : Memory} (hm : m.wf) (p : Nat) (v : Word) : (m.writeWord p v).readWord p = v := by
  have h0 := Memory.read_writeWord_byte hm p v (k := 0) (by omega)
  rw [Nat.add_zero] at h0
  apply BitVec.eq_of_toNat_eq
  rw [Memory.readWord_toNat, h0, Memory.read_writeWord_byte hm p v (by omega), Memory.read_writeWord_byte hm p v (by omega),
    Memory.read_writeWord_byte hm p v (by omega)]
  simp only [wordByte_toNat]
  have := v.isLt
  omega

end Sys2Proof.Machine
end

