-- ==== Sys2Proof/Laws/State.lean ====
section
/-! SUPPORT. The named updates of State, one lemma per field per update, and what reading a register after each gives. -/

namespace Sys2Proof.Machine

@[simp] theorem State.reg_setReg_self (s : State) (r : Reg) (v : Word) : (s.setReg r v).reg r = v := by
  simp [State.reg, State.setReg]

@[simp] theorem State.reg_setReg_ne (s : State) {r k : Reg} (v : Word) (h : k ≠ r) : (s.setReg r v).reg k = s.reg k := by
  have hv : r.val ≠ k.val := fun e => h (Fin.ext e.symm)
  simp [State.reg, State.setReg, hv]

@[simp] theorem State.ip_jump (s : State) (t : Word) : (s.jump t).ip = t := by simp [State.jump, State.ip]

@[simp] theorem State.reg_jump_ne (s : State) (t : Word) {k : Reg} (h : k ≠ Reg.ip) : (s.jump t).reg k = s.reg k := by
  simp [State.jump, h]

@[simp] theorem State.ip_setReg_ne (s : State) {r : Reg} (v : Word) (h : r ≠ Reg.ip) : (s.setReg r v).ip = s.ip := by
  simp [State.ip, h.symm]

@[simp] theorem State.ip_advance (s : State) (L : Nat) : (s.advance L).ip = addrPlus s.ip (1 + L) := by simp [State.advance]

@[simp] theorem State.reg_advance_ne (s : State) (L : Nat) {k : Reg} (h : k ≠ Reg.ip) : (s.advance L).reg k = s.reg k := by
  simp [State.advance, h]

@[simp] theorem State.ip_writeBack (s : State) {d : Reg} (v : Word) (L : Nat) (h : d ≠ Reg.ip) :
    (s.writeBack d v L).ip = addrPlus s.ip (1 + L) := by simp [State.writeBack, h]

@[simp] theorem State.reg_writeBack_self (s : State) {d : Reg} (v : Word) (L : Nat) (h : d ≠ Reg.ip) :
    (s.writeBack d v L).reg d = v := by simp [State.writeBack, h]

@[simp] theorem State.reg_writeBack_ne (s : State) {d k : Reg} (v : Word) (L : Nat) (h : k ≠ d) (hk : k ≠ Reg.ip) :
    (s.writeBack d v L).reg k = s.reg k := by simp [State.writeBack, h, hk]

@[simp] theorem State.ip_endRun (s : State) (r : RunResult) (L : Nat) : (s.endRun r L).ip = stopIp s.ip L s.draws := by
  simp [State.endRun, State.ip, State.reg, State.jump, State.setReg]

@[simp] theorem State.reg_endRun_ne (s : State) (r : RunResult) (L : Nat) {k : Reg} (h : k ≠ Reg.ip) :
    (s.endRun r L).reg k = s.reg k := State.reg_jump_ne s _ h

/-! Updates that leave the registers alone. -/

@[simp] theorem State.reg_setSkip (s : State) (on : Bool) (k : Reg) : (s.setSkip on).reg k = s.reg k := rfl

@[simp] theorem State.ip_setSkip (s : State) (on : Bool) : (s.setSkip on).ip = s.ip := rfl

@[simp] theorem State.reg_storeWord (s : State) (p : Nat) (v : Word) (k : Reg) : (s.storeWord p v).reg k = s.reg k := rfl

@[simp] theorem State.ip_storeWord (s : State) (p : Nat) (v : Word) : (s.storeWord p v).ip = s.ip := rfl

@[simp] theorem State.reg_stackWrite (s : State) (a v : Word) (k : Reg) : (s.stackWrite a v).reg k = s.reg k := rfl

@[simp] theorem State.ip_stackWrite (s : State) (a v : Word) : (s.stackWrite a v).ip = s.ip := rfl

@[simp] theorem State.reg_counted (s : State) (k : Reg) : s.counted.reg k = s.reg k := rfl

@[simp] theorem State.ip_counted (s : State) : s.counted.ip = s.ip := rfl

/-! Updates that leave memory alone. -/

@[simp] theorem State.byte_setReg (s : State) (r : Reg) (v : Word) (p : Nat) : (s.setReg r v).byte p = s.byte p := rfl

@[simp] theorem State.byte_jump (s : State) (t : Word) (p : Nat) : (s.jump t).byte p = s.byte p := rfl

@[simp] theorem State.byte_advance (s : State) (L p : Nat) : (s.advance L).byte p = s.byte p := rfl

@[simp] theorem State.byte_writeBack (s : State) (d : Reg) (v : Word) (L p : Nat) : (s.writeBack d v L).byte p = s.byte p := rfl

@[simp] theorem State.byte_setSkip (s : State) (on : Bool) (p : Nat) : (s.setSkip on).byte p = s.byte p := rfl

@[simp] theorem State.byte_endRun (s : State) (r : RunResult) (L p : Nat) : (s.endRun r L).byte p = s.byte p := rfl

@[simp] theorem State.byte_counted (s : State) (p : Nat) : s.counted.byte p = s.byte p := rfl

/-! `State.setReg`, field by field. -/

@[simp] theorem State.skip_setReg (s : State) (r : Reg) (v : Word) : (s.setReg r v).skip = s.skip := rfl
@[simp] theorem State.mem_setReg (s : State) (r : Reg) (v : Word) : (s.setReg r v).mem = s.mem := rfl
@[simp] theorem State.rom_setReg (s : State) (r : Reg) (v : Word) : (s.setReg r v).rom = s.rom := rfl
@[simp] theorem State.ram_setReg (s : State) (r : Reg) (v : Word) : (s.setReg r v).ram = s.ram := rfl
@[simp] theorem State.stackSizeHint_setReg (s : State) (r : Reg) (v : Word) : (s.setReg r v).stackSizeHint = s.stackSizeHint := rfl
@[simp] theorem State.callback_setReg (s : State) (r : Reg) (v : Word) : (s.setReg r v).callback = s.callback := rfl
@[simp] theorem State.phase_setReg (s : State) (r : Reg) (v : Word) : (s.setReg r v).phase = s.phase := rfl
@[simp] theorem State.programSize_setReg (s : State) (r : Reg) (v : Word) : (s.setReg r v).programSize = s.programSize := rfl
@[simp] theorem State.maxInstructions_setReg (s : State) (r : Reg) (v : Word) : (s.setReg r v).maxInstructions = s.maxInstructions := rfl
@[simp] theorem State.count_setReg (s : State) (r : Reg) (v : Word) : (s.setReg r v).count = s.count := rfl
@[simp] theorem State.host_setReg (s : State) (r : Reg) (v : Word) : (s.setReg r v).host = s.host := rfl
@[simp] theorem State.hostAnswers_setReg (s : State) (r : Reg) (v : Word) : (s.setReg r v).hostAnswers = s.hostAnswers := rfl
@[simp] theorem State.draws_setReg (s : State) (r : Reg) (v : Word) : (s.setReg r v).draws = s.draws := rfl

/-! `State.jump`, field by field. -/

@[simp] theorem State.skip_jump (s : State) (t : Word) : (s.jump t).skip = s.skip := rfl
@[simp] theorem State.mem_jump (s : State) (t : Word) : (s.jump t).mem = s.mem := rfl
@[simp] theorem State.rom_jump (s : State) (t : Word) : (s.jump t).rom = s.rom := rfl
@[simp] theorem State.ram_jump (s : State) (t : Word) : (s.jump t).ram = s.ram := rfl
@[simp] theorem State.stackSizeHint_jump (s : State) (t : Word) : (s.jump t).stackSizeHint = s.stackSizeHint := rfl
@[simp] theorem State.callback_jump (s : State) (t : Word) : (s.jump t).callback = s.callback := rfl
@[simp] theorem State.phase_jump (s : State) (t : Word) : (s.jump t).phase = s.phase := rfl
@[simp] theorem State.programSize_jump (s : State) (t : Word) : (s.jump t).programSize = s.programSize := rfl
@[simp] theorem State.maxInstructions_jump (s : State) (t : Word) : (s.jump t).maxInstructions = s.maxInstructions := rfl
@[simp] theorem State.count_jump (s : State) (t : Word) : (s.jump t).count = s.count := rfl
@[simp] theorem State.host_jump (s : State) (t : Word) : (s.jump t).host = s.host := rfl
@[simp] theorem State.hostAnswers_jump (s : State) (t : Word) : (s.jump t).hostAnswers = s.hostAnswers := rfl
@[simp] theorem State.draws_jump (s : State) (t : Word) : (s.jump t).draws = s.draws := rfl

/-! `State.advance`, field by field. -/

@[simp] theorem State.skip_advance (s : State) (L : Nat) : (s.advance L).skip = s.skip := rfl
@[simp] theorem State.mem_advance (s : State) (L : Nat) : (s.advance L).mem = s.mem := rfl
@[simp] theorem State.rom_advance (s : State) (L : Nat) : (s.advance L).rom = s.rom := rfl
@[simp] theorem State.ram_advance (s : State) (L : Nat) : (s.advance L).ram = s.ram := rfl
@[simp] theorem State.stackSizeHint_advance (s : State) (L : Nat) : (s.advance L).stackSizeHint = s.stackSizeHint := rfl
@[simp] theorem State.callback_advance (s : State) (L : Nat) : (s.advance L).callback = s.callback := rfl
@[simp] theorem State.phase_advance (s : State) (L : Nat) : (s.advance L).phase = s.phase := rfl
@[simp] theorem State.programSize_advance (s : State) (L : Nat) : (s.advance L).programSize = s.programSize := rfl
@[simp] theorem State.maxInstructions_advance (s : State) (L : Nat) : (s.advance L).maxInstructions = s.maxInstructions := rfl
@[simp] theorem State.count_advance (s : State) (L : Nat) : (s.advance L).count = s.count := rfl
@[simp] theorem State.host_advance (s : State) (L : Nat) : (s.advance L).host = s.host := rfl
@[simp] theorem State.hostAnswers_advance (s : State) (L : Nat) : (s.advance L).hostAnswers = s.hostAnswers := rfl
@[simp] theorem State.draws_advance (s : State) (L : Nat) : (s.advance L).draws = s.draws := rfl

/-! `State.writeBack`, field by field. -/

@[simp] theorem State.skip_writeBack (s : State) (d : Reg) (v : Word) (L : Nat) : (s.writeBack d v L).skip = s.skip := rfl
@[simp] theorem State.mem_writeBack (s : State) (d : Reg) (v : Word) (L : Nat) : (s.writeBack d v L).mem = s.mem := rfl
@[simp] theorem State.rom_writeBack (s : State) (d : Reg) (v : Word) (L : Nat) : (s.writeBack d v L).rom = s.rom := rfl
@[simp] theorem State.ram_writeBack (s : State) (d : Reg) (v : Word) (L : Nat) : (s.writeBack d v L).ram = s.ram := rfl
@[simp] theorem State.stackSizeHint_writeBack (s : State) (d : Reg) (v : Word) (L : Nat) : (s.writeBack d v L).stackSizeHint = s.stackSizeHint := rfl
@[simp] theorem State.callback_writeBack (s : State) (d : Reg) (v : Word) (L : Nat) : (s.writeBack d v L).callback = s.callback := rfl
@[simp] theorem State.phase_writeBack (s : State) (d : Reg) (v : Word) (L : Nat) : (s.writeBack d v L).phase = s.phase := rfl
@[simp] theorem State.programSize_writeBack (s : State) (d : Reg) (v : Word) (L : Nat) : (s.writeBack d v L).programSize = s.programSize := rfl
@[simp] theorem State.maxInstructions_writeBack (s : State) (d : Reg) (v : Word) (L : Nat) : (s.writeBack d v L).maxInstructions = s.maxInstructions := rfl
@[simp] theorem State.count_writeBack (s : State) (d : Reg) (v : Word) (L : Nat) : (s.writeBack d v L).count = s.count := rfl
@[simp] theorem State.host_writeBack (s : State) (d : Reg) (v : Word) (L : Nat) : (s.writeBack d v L).host = s.host := rfl
@[simp] theorem State.hostAnswers_writeBack (s : State) (d : Reg) (v : Word) (L : Nat) : (s.writeBack d v L).hostAnswers = s.hostAnswers := rfl
@[simp] theorem State.draws_writeBack (s : State) (d : Reg) (v : Word) (L : Nat) : (s.writeBack d v L).draws = s.draws := rfl

/-! `State.setSkip`, field by field. -/

@[simp] theorem State.regs_setSkip (s : State) (on : Bool) : (s.setSkip on).regs = s.regs := rfl
@[simp] theorem State.skip_setSkip (s : State) (on : Bool) : (s.setSkip on).skip = on := rfl
@[simp] theorem State.mem_setSkip (s : State) (on : Bool) : (s.setSkip on).mem = s.mem := rfl
@[simp] theorem State.rom_setSkip (s : State) (on : Bool) : (s.setSkip on).rom = s.rom := rfl
@[simp] theorem State.ram_setSkip (s : State) (on : Bool) : (s.setSkip on).ram = s.ram := rfl
@[simp] theorem State.stackSizeHint_setSkip (s : State) (on : Bool) : (s.setSkip on).stackSizeHint = s.stackSizeHint := rfl
@[simp] theorem State.callback_setSkip (s : State) (on : Bool) : (s.setSkip on).callback = s.callback := rfl
@[simp] theorem State.phase_setSkip (s : State) (on : Bool) : (s.setSkip on).phase = s.phase := rfl
@[simp] theorem State.programSize_setSkip (s : State) (on : Bool) : (s.setSkip on).programSize = s.programSize := rfl
@[simp] theorem State.maxInstructions_setSkip (s : State) (on : Bool) : (s.setSkip on).maxInstructions = s.maxInstructions := rfl
@[simp] theorem State.count_setSkip (s : State) (on : Bool) : (s.setSkip on).count = s.count := rfl
@[simp] theorem State.host_setSkip (s : State) (on : Bool) : (s.setSkip on).host = s.host := rfl
@[simp] theorem State.hostAnswers_setSkip (s : State) (on : Bool) : (s.setSkip on).hostAnswers = s.hostAnswers := rfl
@[simp] theorem State.draws_setSkip (s : State) (on : Bool) : (s.setSkip on).draws = s.draws := rfl

/-! `State.storeWord`, field by field. -/

@[simp] theorem State.regs_storeWord (s : State) (p : Nat) (v : Word) : (s.storeWord p v).regs = s.regs := rfl
@[simp] theorem State.skip_storeWord (s : State) (p : Nat) (v : Word) : (s.storeWord p v).skip = s.skip := rfl
@[simp] theorem State.mem_storeWord (s : State) (p : Nat) (v : Word) : (s.storeWord p v).mem = s.mem.writeWord p v := rfl
@[simp] theorem State.rom_storeWord (s : State) (p : Nat) (v : Word) : (s.storeWord p v).rom = s.rom := rfl
@[simp] theorem State.ram_storeWord (s : State) (p : Nat) (v : Word) : (s.storeWord p v).ram = s.ram := rfl
@[simp] theorem State.stackSizeHint_storeWord (s : State) (p : Nat) (v : Word) : (s.storeWord p v).stackSizeHint = s.stackSizeHint := rfl
@[simp] theorem State.callback_storeWord (s : State) (p : Nat) (v : Word) : (s.storeWord p v).callback = s.callback := rfl
@[simp] theorem State.phase_storeWord (s : State) (p : Nat) (v : Word) : (s.storeWord p v).phase = s.phase := rfl
@[simp] theorem State.programSize_storeWord (s : State) (p : Nat) (v : Word) : (s.storeWord p v).programSize = s.programSize := rfl
@[simp] theorem State.maxInstructions_storeWord (s : State) (p : Nat) (v : Word) : (s.storeWord p v).maxInstructions = s.maxInstructions := rfl
@[simp] theorem State.count_storeWord (s : State) (p : Nat) (v : Word) : (s.storeWord p v).count = s.count := rfl
@[simp] theorem State.host_storeWord (s : State) (p : Nat) (v : Word) : (s.storeWord p v).host = s.host := rfl
@[simp] theorem State.hostAnswers_storeWord (s : State) (p : Nat) (v : Word) : (s.storeWord p v).hostAnswers = s.hostAnswers := rfl
@[simp] theorem State.draws_storeWord (s : State) (p : Nat) (v : Word) : (s.storeWord p v).draws = s.draws := rfl

/-! `State.stackWrite`, field by field. -/

@[simp] theorem State.regs_stackWrite (s : State) (a : Word) (v : Word) : (s.stackWrite a v).regs = s.regs := rfl
@[simp] theorem State.skip_stackWrite (s : State) (a : Word) (v : Word) : (s.stackWrite a v).skip = s.skip := rfl
@[simp] theorem State.mem_stackWrite (s : State) (a : Word) (v : Word) : (s.stackWrite a v).mem = s.mem.writeWord (s.slot a) v := rfl
@[simp] theorem State.rom_stackWrite (s : State) (a : Word) (v : Word) : (s.stackWrite a v).rom = s.rom := rfl
@[simp] theorem State.ram_stackWrite (s : State) (a : Word) (v : Word) : (s.stackWrite a v).ram = s.ram := rfl
@[simp] theorem State.stackSizeHint_stackWrite (s : State) (a : Word) (v : Word) : (s.stackWrite a v).stackSizeHint = s.stackSizeHint := rfl
@[simp] theorem State.callback_stackWrite (s : State) (a : Word) (v : Word) : (s.stackWrite a v).callback = s.callback := rfl
@[simp] theorem State.phase_stackWrite (s : State) (a : Word) (v : Word) : (s.stackWrite a v).phase = s.phase := rfl
@[simp] theorem State.programSize_stackWrite (s : State) (a : Word) (v : Word) : (s.stackWrite a v).programSize = s.programSize := rfl
@[simp] theorem State.maxInstructions_stackWrite (s : State) (a : Word) (v : Word) : (s.stackWrite a v).maxInstructions = s.maxInstructions := rfl
@[simp] theorem State.count_stackWrite (s : State) (a : Word) (v : Word) : (s.stackWrite a v).count = s.count := rfl
@[simp] theorem State.host_stackWrite (s : State) (a : Word) (v : Word) : (s.stackWrite a v).host = s.host := rfl
@[simp] theorem State.hostAnswers_stackWrite (s : State) (a : Word) (v : Word) : (s.stackWrite a v).hostAnswers = s.hostAnswers := rfl
@[simp] theorem State.draws_stackWrite (s : State) (a : Word) (v : Word) : (s.stackWrite a v).draws = s.draws := rfl

/-! `State.endRun`, field by field. -/

@[simp] theorem State.skip_endRun (s : State) (r : RunResult) (L : Nat) : (s.endRun r L).skip = s.skip := rfl
@[simp] theorem State.mem_endRun (s : State) (r : RunResult) (L : Nat) : (s.endRun r L).mem = s.mem := rfl
@[simp] theorem State.rom_endRun (s : State) (r : RunResult) (L : Nat) : (s.endRun r L).rom = s.rom := rfl
@[simp] theorem State.ram_endRun (s : State) (r : RunResult) (L : Nat) : (s.endRun r L).ram = s.ram := rfl
@[simp] theorem State.stackSizeHint_endRun (s : State) (r : RunResult) (L : Nat) : (s.endRun r L).stackSizeHint = s.stackSizeHint := rfl
@[simp] theorem State.callback_endRun (s : State) (r : RunResult) (L : Nat) : (s.endRun r L).callback = s.callback := rfl
@[simp] theorem State.phase_endRun (s : State) (r : RunResult) (L : Nat) : (s.endRun r L).phase = .stopped r := rfl
@[simp] theorem State.programSize_endRun (s : State) (r : RunResult) (L : Nat) : (s.endRun r L).programSize = s.programSize := rfl
@[simp] theorem State.maxInstructions_endRun (s : State) (r : RunResult) (L : Nat) : (s.endRun r L).maxInstructions = s.maxInstructions := rfl
@[simp] theorem State.count_endRun (s : State) (r : RunResult) (L : Nat) : (s.endRun r L).count = s.count := rfl
@[simp] theorem State.host_endRun (s : State) (r : RunResult) (L : Nat) : (s.endRun r L).host = s.host := rfl
@[simp] theorem State.hostAnswers_endRun (s : State) (r : RunResult) (L : Nat) : (s.endRun r L).hostAnswers = s.hostAnswers := rfl
@[simp] theorem State.draws_endRun (s : State) (r : RunResult) (L : Nat) : (s.endRun r L).draws = s.draws + 1 := rfl

/-! `State.counted`, field by field. -/

@[simp] theorem State.regs_counted (s : State) : (s.counted).regs = s.regs := rfl
@[simp] theorem State.skip_counted (s : State) : (s.counted).skip = s.skip := rfl
@[simp] theorem State.mem_counted (s : State) : (s.counted).mem = s.mem := rfl
@[simp] theorem State.rom_counted (s : State) : (s.counted).rom = s.rom := rfl
@[simp] theorem State.ram_counted (s : State) : (s.counted).ram = s.ram := rfl
@[simp] theorem State.stackSizeHint_counted (s : State) : (s.counted).stackSizeHint = s.stackSizeHint := rfl
@[simp] theorem State.callback_counted (s : State) : (s.counted).callback = s.callback := rfl
@[simp] theorem State.programSize_counted (s : State) : (s.counted).programSize = s.programSize := rfl
@[simp] theorem State.maxInstructions_counted (s : State) : (s.counted).maxInstructions = s.maxInstructions := rfl
@[simp] theorem State.count_counted (s : State) : (s.counted).count = s.count + 1 := rfl
@[simp] theorem State.host_counted (s : State) : (s.counted).host = s.host := rfl
@[simp] theorem State.hostAnswers_counted (s : State) : (s.counted).hostAnswers = s.hostAnswers := rfl
@[simp] theorem State.draws_counted (s : State) : (s.counted).draws = s.draws := rfl

end Sys2Proof.Machine
end

