-- ==== Sys2Proof/Laws/Operands.lean ====
section
/-! SUPPORT. What the shared operations can do, each said once: register operands, the end of a run, one register written, one word
stored. -/

namespace Sys2Proof.Machine

theorem Reg.sp_ne_ip : Reg.sp ≠ Reg.ip := by decide

theorem Reg.ra_ne_ip : Reg.ra ≠ Reg.ip := by decide

theorem Reg.toNat_field (r : Reg) : r.field.toNat = r.val := by
  have h : r.val < 21 := r.isLt
  simp only [Reg.field, BitVec.toNat_ofNat]
  omega

theorem Reg.field_inj {r k : Reg} (h : r.field = k.field) : r = k := by
  have := congrArg BitVec.toNat h
  rw [Reg.toNat_field, Reg.toNat_field] at this
  exact Fin.ext this

/-- Every byte below 21 is the operand byte of a register. -/
theorem Reg.exists_field {b : RegField} (h : b.toNat < registerCount) : ∃ r : Reg, b = r.field ∧ r.val = b.toNat :=
  ⟨⟨b.toNat, h⟩, by apply BitVec.eq_of_toNat_eq; rw [Reg.toNat_field], rfl⟩

/-! Register operands. -/

/-- A register operand that names a register other than IP is that register. -/
theorem withReg_field {L : Nat} {s : State} {k : Reg → Effect} {r : Reg} (h : r ≠ Reg.ip) : withReg L r.field s k = k r := by
  have hr : r.field.toNat = r.val := Reg.toNat_field r
  have hlt : r.field.toNat < registerCount := by rw [hr]; exact r.isLt
  have hip : r.field.toNat ≠ Reg.ip.val := by rw [hr]; exact fun e => h (Fin.ext e)
  rw [withReg, dif_pos hlt, if_neg hip]
  congr 1
  exact Fin.ext hr

theorem withReg_invalid {L : Nat} {s : State} {k : Reg → Effect} {b : RegField} (h : ¬ b.toNat < registerCount) :
    withReg L b s k = .next (s.raise .invalidRegister L) := by rw [withReg, dif_neg h]

theorem withReg_ip {L : Nat} {s : State} {k : Reg → Effect} {b : RegField} (h : b.toNat = Reg.ip.val) :
    withReg L b s k = .fault .refusedIpOperand := by
  rw [withReg, dif_pos (by rw [h]; exact Reg.ip.isLt), if_pos h]

/-- If a one-register instruction answers a next state, the operand was invalid or the continuation answered it. -/
theorem withReg_next {L : Nat} {s t : State} {k : Reg → Effect} {b : RegField} (h : withReg L b s k = .next t) :
    t = s.raise .invalidRegister L ∨ ∃ r : Reg, b = r.field ∧ r ≠ Reg.ip ∧ k r = .next t := by
  by_cases hb : b.toNat < registerCount
  · obtain ⟨r, rfl, -⟩ := Reg.exists_field hb
    by_cases hip : r = Reg.ip
    · subst hip
      rw [withReg_ip (Reg.toNat_field _)] at h
      cases h
    · rw [withReg_field hip] at h
      exact .inr ⟨r, rfl, hip, h⟩
  · rw [withReg_invalid hb] at h
    cases h
    exact .inl rfl

theorem withRegs_field {L : Nat} {s : State} {k : Reg → Reg → Effect} {d r : Reg} (hd : d ≠ Reg.ip) (hr : r ≠ Reg.ip) :
    withRegs L d.field r.field s k = k d r := by
  have ed : d.field.toNat = d.val := Reg.toNat_field d
  have er : r.field.toNat = r.val := Reg.toNat_field r
  have hip : ¬ (d.field.toNat = Reg.ip.val ∨ r.field.toNat = Reg.ip.val) := by
    rw [ed, er]
    rintro (e | e)
    · exact hd (Fin.ext e)
    · exact hr (Fin.ext e)
  rw [withRegs, dif_pos (by rw [ed]; exact d.isLt), dif_pos (by rw [er]; exact r.isLt), if_neg hip]
  congr 1
  · exact Fin.ext ed
  · exact Fin.ext er

theorem withRegs_invalid {L : Nat} {s : State} {k : Reg → Reg → Effect} {b c : RegField}
    (h : ¬ (b.toNat < registerCount ∧ c.toNat < registerCount)) :
    withRegs L b c s k = .next (s.raise .invalidRegister L) := by
  rw [withRegs]
  split
  · split
    · exact absurd ⟨‹_›, ‹_›⟩ h
    · rfl
  · rfl

theorem withRegs_ip {L : Nat} {s : State} {k : Reg → Reg → Effect} {b c : RegField}
    (hb : b.toNat < registerCount) (hc : c.toNat < registerCount) (h : b.toNat = Reg.ip.val ∨ c.toNat = Reg.ip.val) :
    withRegs L b c s k = .fault .refusedIpOperand := by rw [withRegs, dif_pos hb, dif_pos hc, if_pos h]

/-- If a two-register instruction answers a next state, an operand was invalid or the continuation answered it. -/
theorem withRegs_next {L : Nat} {s t : State} {k : Reg → Reg → Effect} {b c : RegField} (h : withRegs L b c s k = .next t) :
    t = s.raise .invalidRegister L ∨
      ∃ d r : Reg, b = d.field ∧ c = r.field ∧ d ≠ Reg.ip ∧ r ≠ Reg.ip ∧ k d r = .next t := by
  by_cases hbc : b.toNat < registerCount ∧ c.toNat < registerCount
  · obtain ⟨d, rfl, -⟩ := Reg.exists_field hbc.1
    obtain ⟨r, rfl, -⟩ := Reg.exists_field hbc.2
    by_cases hip : d = Reg.ip ∨ r = Reg.ip
    · rw [withRegs_ip hbc.1 hbc.2 (by simpa [Reg.toNat_field, Fin.ext_iff] using hip)] at h
      cases h
    · obtain ⟨hd, hr⟩ := not_or.1 hip
      rw [withRegs_field hd hr] at h
      exact .inr ⟨d, r, rfl, rfl, hd, hr, h⟩
  · rw [withRegs_invalid hbc] at h
    cases h
    exact .inl rfl

theorem binary_field {op : Word → Word → Word} {s : State} {d r : Reg} (hd : d ≠ Reg.ip) (hr : r ≠ Reg.ip) :
    binary op d.field r.field s = .next (s.writeBack d (op (s.reg d) (s.reg r)) 2) := withRegs_field hd hr

/-- If a `reg1 <- reg1 o reg2` instruction answers a next state, an operand was invalid or reg1 was written. -/
theorem binary_next {op : Word → Word → Word} {s t : State} {b c : RegField} (h : binary op b c s = .next t) :
    t = s.raise .invalidRegister 2 ∨ ∃ d v, b = Reg.field d ∧ d ≠ Reg.ip ∧ t = s.writeBack d v 2 := by
  rcases withRegs_next h with h | ⟨d, r, hb, -, hd, -, h⟩
  · exact .inl h
  · cases h
    exact .inr ⟨d, _, hb, hd, rfl⟩

/-- A one-register instruction answers in `s'` what it answers in `s`, up to `f`, if its error and its continuation do. -/
theorem withReg_map {L : Nat} {b : RegField} {s s' t : State} {k : State → Reg → Effect} {f : State → State}
    (h : withReg L b s (k s) = .next t) (hf : ∀ e, s'.raise e L = f (s.raise e L))
    (hk : ∀ r t, k s r = .next t → k s' r = .next (f t)) : withReg L b s' (k s') = .next (f t) := by
  unfold withReg at h ⊢
  split at h
  · split at h
    · cases h
    · rw [dif_pos ‹_›, if_neg ‹_›]
      exact hk _ _ h
  · rw [dif_neg ‹_›]
    cases h
    rw [hf]

/-- The same for two registers. -/
theorem withRegs_map {L : Nat} {b c : RegField} {s s' t : State} {k : State → Reg → Reg → Effect} {f : State → State}
    (h : withRegs L b c s (k s) = .next t) (hf : ∀ e, s'.raise e L = f (s.raise e L))
    (hk : ∀ d r t, k s d r = .next t → k s' d r = .next (f t)) : withRegs L b c s' (k s') = .next (f t) := by
  unfold withRegs at h ⊢
  split at h
  · split at h
    · split at h
      · cases h
      · rename_i hb hc hip
        rw [dif_pos hb, dif_pos hc, if_neg hip]
        exact hk _ _ _ h
    · rename_i hb hc
      rw [dif_pos hb, dif_neg hc]
      cases h
      rw [hf]
  · rw [dif_neg ‹_›]
    cases h
    rw [hf]

/-! Frames of the shared updates. -/

theorem SameConfig.trans {s t u : State} (h : SameConfig s t) (k : SameConfig t u) : SameConfig s u :=
  ⟨k.rom.trans h.rom, k.ram.trans h.ram, k.stackSizeHint.trans h.stackSizeHint, k.callback.trans h.callback,
    k.programSize.trans h.programSize, k.maxInstructions.trans h.maxInstructions, k.host.trans h.host⟩

theorem stopIp_in_range (a : Word) (L draw : Nat) : ∃ k, k ≤ L ∧ stopIp a L draw = addrPlus a k := by
  unfold stopIp
  split
  · exact ⟨0, by omega, by simp [addrPlus]⟩
  · exact ⟨_, Nat.le_of_lt_succ (Nat.mod_lt _ (by omega)), rfl⟩

/-- Ending a run changes nothing but IP and the phase. -/
theorem RunEnds.of_endRun (s : State) (r : RunResult) (L : Nat) : RunEnds r L s (s.endRun r L) where
  phase := rfl
  ip := by
    obtain ⟨k, hk, h⟩ := stopIp_in_range s.ip L s.draws
    exact ⟨k, hk, (State.ip_endRun s r L).trans h⟩
  regs := fun k hk => State.reg_endRun_ne s r L (by simpa using hk)
  skip := rfl
  mem := fun _ => rfl
  config := by constructor <;> rfl
  count := rfl
  hostAnswers := rfl

/-- Writing one register and falling through. -/
theorem OnlyRegs.of_writeBack (s : State) {d : Reg} (v : Word) (L : Nat) (h : d ≠ Reg.ip) :
    OnlyRegs [d] (1 + L) s (s.writeBack d v L) where
  ip := State.ip_writeBack s v L h
  regs := fun k hk => by
    simp only [List.mem_cons, List.not_mem_nil, or_false, not_or] at hk
    exact State.reg_writeBack_ne s v L hk.2 hk.1
  skip := rfl
  mem := fun _ => rfl
  config := by constructor <;> rfl
  run := by constructor <;> rfl

/-- A stored word, byte by byte, and every byte outside it. -/
theorem StoresWord.of_storeWord {s : State} (hm : s.mem.wf) (p : Nat) (v : Word) : StoresWord p v s (s.storeWord p v) where
  byte0 := Memory.read_writeWord_byte hm p v (k := 0) (by omega)
  byte1 := Memory.read_writeWord_byte hm p v (k := 1) (by omega)
  byte2 := Memory.read_writeWord_byte hm p v (k := 2) (by omega)
  byte3 := Memory.read_writeWord_byte hm p v (k := 3) (by omega)
  outside := fun _ hq => Memory.read_writeWord_outside hm v hq

theorem State.loadWord_toNat (s : State) (p : Nat) : (s.loadWord p).toNat = s.wordAt p := Memory.readWord_toNat s.mem p

end Sys2Proof.Machine
end

