-- ==== Sys2Proof/Laws/Host.lean ====
section
/-! SUPPORT. What the host's calls can do to the state: one inversion lemma for a callback's call, one for a call between runs. -/

namespace Sys2Proof.Machine

/-- Everything one permitted call of a callback can do. -/
inductive CallbackEffect (s : State) : State → Prop
  | read : CallbackEffect s s
  | wrote (r : Reg) (v : Word) (h : r ≠ Reg.ip) : CallbackEffect s (s.setReg r v)
  | pushed (v : Word) (h4 : 4 ≤ s.sp.toNat) (hsize : s.sp.toNat ≤ s.ram.size) :
      CallbackEffect s ((s.setReg Reg.sp (s.sp - 4)).stackWrite (s.sp - 4) v)
  | wroteByte (p : Addr) (b : Byte) (h : s.rom.contains p.toNat = true ∨ s.ram.contains p.toNat = true) :
      CallbackEffect s { s with mem := s.mem.write p.toNat b }

theorem hostRawPush_ok {s t : State} {v : Word} (h : hostRawPush v s = .ok t) : CallbackEffect s t := by
  unfold hostRawPush at h
  split at h
  · cases h
    exact .pushed v (by omega) (by omega)
  · cases h

theorem hostRawPop_ok {s t : State} (h : (hostRawPop s).map Prod.snd = .ok t) : CallbackEffect s t := by
  unfold hostRawPop at h
  split at h
  · cases h
    exact .wrote Reg.sp _ Reg.sp_ne_ip
  · cases h

theorem hostWriteByte_ok {s t : State} {p : Addr} {b : Byte} (h : hostWriteByte p b s = .ok t) : CallbackEffect s t := by
  unfold hostWriteByte at h
  split at h
  · rename_i hc
    cases h
    exact .wroteByte p b (by simpa using hc)
  · cases h

theorem hostMemory_ok {s t : State} {p : Addr} (h : (hostMemory p s).map (fun _ => s) = .ok t) : t = s := by
  cases hm : hostMemory p s <;> rw [hm] at h <;> cases h
  rfl

theorem hostGetRegister_ok {s t : State} {id : Nat} (h : (hostGetRegister id s).map (fun _ => s) = .ok t) : t = s := by
  cases hm : hostGetRegister id s <;> rw [hm] at h <;> cases h
  rfl

theorem callbackGetRegister_ok {s t : State} {id : Nat} (h : (callbackGetRegister id s).map (fun _ => s) = .ok t) : t = s := by
  cases hm : callbackGetRegister id s <;> rw [hm] at h <;> cases h
  rfl

/-- If a callback's call is answered, it had one of these effects. -/
theorem callbackCall_ok {a : HostAction} {s t : State} (h : callbackCall a s = .ok t) : CallbackEffect s t := by
  cases a with
  | bind => cases h
  | run => cases h
  | register => cases h
  | getRegister id => rw [callbackGetRegister_ok h]; exact .read
  | setRegister id v =>
    simp only [callbackCall] at h
    split at h
    · cases h
    · rename_i hid
      unfold hostSetRegister at h
      split at h
      · rename_i hlt
        cases h
        exact .wrote ⟨id, hlt⟩ v fun e => hid (congrArg Fin.val e)
      · cases h
  | rawPush v => exact hostRawPush_ok h
  | rawPop => exact hostRawPop_ok h
  | memory p => rw [hostMemory_ok h]; exact .read
  | writeByte p b => exact hostWriteByte_ok h

/-- A property of states that every permitted call keeps holds after any list of calls. -/
theorem callbackCalls_induction {P : State → Prop} (hP : ∀ s t, CallbackEffect s t → P s → P t) :
    ∀ {acts : List HostAction} {s t : State}, callbackCalls acts s = .ok t → P s → P t
  | [], s, t, h, hs => by cases h; exact hs
  | a :: acts, s, t, h, hs => by
    rw [callbackCalls] at h
    split at h
    · exact callbackCalls_induction hP h (hP s _ (callbackCall_ok ‹_›) hs)
    · cases h

/-- The calls of a callback happen in order: those before `acts'` first, and a refused one ends them all. -/
theorem callbackCalls_append : ∀ (acts acts' : List HostAction) (s : State),
    callbackCalls (acts ++ acts') s = (callbackCalls acts s).bind (callbackCalls acts')
  | [], _, _ => rfl
  | a :: acts, acts', s => by
    simp only [List.cons_append, callbackCalls]
    cases callbackCall a s with
    | ok t => exact callbackCalls_append acts acts' t
    | error r => rfl

theorem callbackCalls_singleton (a : HostAction) (s : State) : callbackCalls [a] s = callbackCall a s := by
  unfold callbackCalls
  cases callbackCall a s <;> rfl

/-- In the callback every register but IP reads as between runs. -/
theorem callbackGetRegister_ne_ip {id : Nat} (s : State) (h : id ≠ Reg.ip.val) :
    callbackGetRegister id s = hostGetRegister id s := by
  unfold callbackGetRegister hostGetRegister
  split
  · simp [State.reg, State.callbackRegs, Ne.symm h]
  · rfl

/-- In the callback IP reads as the free value. -/
theorem callbackGetRegister_ip (s : State) : callbackGetRegister Reg.ip.val s = .ok (Config.callbackIp s.draws) := by
  have h : Reg.ip.val < registerCount := Reg.ip.isLt
  simp only [callbackGetRegister, hostGetRegister, dif_pos h]
  simp [State.reg, State.callbackRegs]

/-- What no callback changes. -/
structure CallbackKeeps (s t : State) : Prop where
  ip : t.ip = s.ip
  skip : t.skip = s.skip
  config : SameConfig s t
  run : SameRun s t

theorem CallbackKeeps.refl (s : State) : CallbackKeeps s s := by
  refine ⟨rfl, rfl, ?_, ?_⟩ <;> constructor <;> rfl

theorem CallbackEffect.keeps {s t : State} (h : CallbackEffect s t) : CallbackKeeps s t := by
  cases h with
  | read => exact .refl s
  | wrote r v hr => refine ⟨State.ip_setReg_ne s v hr, rfl, ?_, ?_⟩ <;> constructor <;> rfl
  | pushed v _ _ =>
    refine ⟨?_, rfl, ?_, ?_⟩
    · rw [State.ip_stackWrite, State.ip_setReg_ne s _ Reg.sp_ne_ip]
    · constructor <;> rfl
    · constructor <;> rfl
  | wroteByte p b _ => refine ⟨rfl, rfl, ?_, ?_⟩ <;> constructor <;> rfl

theorem CallbackKeeps.trans {s t u : State} (h : CallbackKeeps s t) (k : CallbackKeeps t u) : CallbackKeeps s u where
  ip := k.ip.trans h.ip
  skip := k.skip.trans h.skip
  config := h.config.trans k.config
  run := ⟨k.run.phase.trans h.run.phase, k.run.count.trans h.run.count, k.run.hostAnswers.trans h.run.hostAnswers,
    k.run.draws.trans h.run.draws⟩

/-- Whatever a callback does, IP, the skip flag, the run and the configuration stay. -/
theorem callbackCalls_keeps {acts : List HostAction} {s t : State} (h : callbackCalls acts s = .ok t) : CallbackKeeps s t :=
  callbackCalls_induction (P := CallbackKeeps s) (fun _ _ e k => k.trans e.keeps) h (.refl s)

/-- Taking an answer touches only the answers and the number of draws. -/
structure AnswerTaken (s t : State) : Prop where
  regs : t.regs = s.regs
  skip : t.skip = s.skip
  mem : t.mem = s.mem
  phase : t.phase = s.phase
  count : t.count = s.count
  config : SameConfig s t

theorem State.takeAnswer_taken (s : State) (cb : Nat) (code : Byte) : AnswerTaken s (s.takeAnswer cb code).2 := by
  unfold State.takeAnswer
  split <;> refine ⟨rfl, rfl, rfl, rfl, rfl, ?_⟩ <;> constructor <;> rfl

end Sys2Proof.Machine
end

