-- ==== Sys2Proof/Laws/Exec.lean ====
section
/-! SUPPORT. Everything an executed instruction can do, said once, and likewise a step of a running core. -/

namespace Sys2Proof.Machine

/-- The next states `exec` can answer. -/
inductive ExecNext (s : State) : Instr → State → Prop
  | raised {i : Instr} (e : ErrCode) : ExecNext s i (s.raise e i.argLen)
  | halted : ExecNext s .halt (s.finish 0)
  | fellThrough : ExecNext s .nop (s.advance 0)
  | wrote {i : Instr} (d : Reg) (v : Word) (hd : d ≠ Reg.ip) (hdest : i.destination = some d.field) :
      ExecNext s i (s.writeBack d v i.argLen)
  | pushed (r : Reg) (h4 : 4 ≤ s.sp.toNat) (hsize : s.sp.toNat ≤ s.ram.size) :
      ExecNext s (.push r.field) ((s.pushed r).advance 1)
  | popped (r : Reg) (hr : r ≠ Reg.ip) (hsize : s.sp.toNat + 4 ≤ s.ram.size) :
      ExecNext s (.pop r.field) ((s.popped r).advance 1)
  | stored (p : Addr) (r : Reg) (h : s.ram.containsWord p.toNat = true) :
      ExecNext s (.store p r.field) ((s.storeWord p.toNat (s.reg r)).advance 3)
  | called (p : Addr) (t : Word) : ExecNext s (.call p) ((s.setReg Reg.ra (addrPlus s.ip 3)).jump t)
  | jumped {i : Instr} (t : Word) (h : i.op = .ret ∨ i.op = .jmp ∨ i.op = .jr) : ExecNext s i (s.jump t)
  | armed {i : Instr} (on : Bool) (h : i.op = .skipz ∨ i.op = .skipnz) : ExecNext s i ((s.setSkip on).advance 1)
  | returned {u : State} (code : Byte) (cb : Nat)
      (h : callbackCalls (s.takeAnswer cb code).1.acts (s.takeAnswer cb code).2 = .ok u) :
      ExecNext s (.syscall code) (u.advance 1)
  | stopped {u : State} (code : Byte) (cb : Nat)
      (h : callbackCalls (s.takeAnswer cb code).1.acts (s.takeAnswer cb code).2 = .ok u) :
      ExecNext s (.syscall code) (u.finish 1)

theorem ExecNext.of_binary {op : Word → Word → Word} {s t : State} {b c : RegField} {i : Instr}
    (hdest : i.destination = some b) (hlen : i.argLen = 2) (h : binary op b c s = .next t) : ExecNext s i t := by
  rcases binary_next h with rfl | ⟨d, v, hb, hd, rfl⟩
  · rw [← hlen]
    exact .raised _
  · rw [← hlen]
    exact .wrote d v hd (hb ▸ hdest)

theorem execPush_next {s t : State} {b : RegField} (h : execPush b s = .next t) : ExecNext s (.push b) t := by
  rcases withReg_next h with rfl | ⟨r, rfl, -, h⟩
  · exact .raised (i := .push b) _
  · split at h
    · cases h
      exact .raised (i := .push r.field) _
    · split at h
      · cases h
      · cases h
        exact .pushed r (by omega) (by omega)

theorem execPop_next {s t : State} {b : RegField} (h : execPop b s = .next t) : ExecNext s (.pop b) t := by
  rcases withReg_next h with rfl | ⟨r, rfl, hr, h⟩
  · exact .raised (i := .pop b) _
  · split at h
    · cases h
      exact .raised (i := .pop r.field) _
    · split at h
      · cases h
        exact .raised (i := .pop r.field) _
      · cases h
        exact .popped r hr (by omega)

theorem execStore_next {s t : State} {p : Addr} {b : RegField} (h : execStore p b s = .next t) : ExecNext s (.store p b) t := by
  rcases withReg_next h with rfl | ⟨r, rfl, -, h⟩
  · exact .raised (i := .store p b) _
  · split at h
    · cases h
      exact .stored p r ‹_›
    · cases h
      exact .raised (i := .store p r.field) _

theorem execLoad_next {s t : State} {p : Addr} {b : RegField} (h : execLoad b p s = .next t) : ExecNext s (.load b p) t := by
  rcases withReg_next h with rfl | ⟨r, rfl, hr, h⟩
  · exact .raised (i := .load b p) _
  · split at h
    · cases h
      exact .wrote (i := .load r.field p) r _ hr rfl
    · cases h
      exact .raised (i := .load r.field p) _

theorem execDiv_next {s t : State} {b c : RegField} (h : execDiv b c s = .next t) : ExecNext s (.div b c) t := by
  rcases withRegs_next h with rfl | ⟨d, r, rfl, -, hd, -, h⟩
  · exact .raised (i := .div b c) _
  · split at h
    · cases h
    · cases h
      exact .wrote (i := .div d.field c) d _ hd rfl

theorem execSyscall_next {s t : State} {code : Byte} (h : execSyscall code s = .next t) : ExecNext s (.syscall code) t := by
  unfold execSyscall at h
  split at h
  · cases h
    exact .raised (i := .syscall code) _
  · unfold afterCallback at h
    split at h
    · split at h <;> cases h
      · exact .returned code _ ‹_›
      · exact .stopped code _ ‹_›
    · cases h

/-- If an instruction answers a next state, it is one of `ExecNext`. -/
theorem exec_next {i : Instr} {s t : State} (h : exec i s = .next t) : ExecNext s i t := by
  cases i with
  | nop => cases h; exact .fellThrough
  | halt => cases h; exact .halted
  | syscall code => exact execSyscall_next h
  | lcons b v =>
    simp only [exec, execLcons] at h
    rcases withReg_next h with rfl | ⟨r, rfl, hr, h⟩
    · exact .raised (i := .lcons b v) _
    · cases h
      exact .wrote (i := .lcons r.field v) r v hr rfl
  | mov d r => exact .of_binary rfl rfl (by simpa only [exec, execMov] using h)
  | push r => exact execPush_next h
  | pop r => exact execPop_next h
  | call p =>
    simp only [exec, execCall] at h
    split at h <;> cases h
    · exact .called p _
    · exact .raised (i := .call p) _
  | ret => cases h; exact .jumped _ (.inl rfl)
  | store p r => exact execStore_next h
  | load r p => exact execLoad_next h
  | add d r => exact .of_binary rfl rfl (by simpa only [exec, execAdd] using h)
  | sub d r => exact .of_binary rfl rfl (by simpa only [exec, execSub] using h)
  | mul d r => exact .of_binary rfl rfl (by simpa only [exec, execMul] using h)
  | div d r => exact execDiv_next h
  | shl d r => exact .of_binary rfl rfl (by simpa only [exec, execShl] using h)
  | shr d r => exact .of_binary rfl rfl (by simpa only [exec, execShr] using h)
  | ishr d r => exact .of_binary rfl rfl (by simpa only [exec, execIshr] using h)
  | and d r => exact .of_binary rfl rfl (by simpa only [exec, execAnd] using h)
  | or d r => exact .of_binary rfl rfl (by simpa only [exec, execOr] using h)
  | xor d r => exact .of_binary rfl rfl (by simpa only [exec, execXor] using h)
  | not b =>
    simp only [exec, execNot] at h
    rcases withReg_next h with rfl | ⟨r, rfl, hr, h⟩
    · exact .raised (i := .not b) _
    · cases h
      exact .wrote (i := .not r.field) r _ hr rfl
  | jmp p =>
    simp only [exec, execJmp] at h
    split at h <;> cases h
    · exact .jumped _ (.inr (.inl rfl))
    · exact .raised (i := .jmp p) _
  | jr b =>
    simp only [exec, execJr] at h
    rcases withReg_next h with rfl | ⟨r, rfl, -, h⟩
    · exact .raised (i := .jr b) _
    · cases h
      exact .jumped _ (.inr (.inr rfl))
  | skipz b =>
    simp only [exec, execSkipz] at h
    rcases withReg_next h with rfl | ⟨r, rfl, -, h⟩
    · exact .raised (i := .skipz b) _
    · cases h
      exact .armed _ (.inl rfl)
  | skipnz b =>
    simp only [exec, execSkipnz] at h
    rcases withReg_next h with rfl | ⟨r, rfl, -, h⟩
    · exact .raised (i := .skipnz b) _
    · cases h
      exact .armed _ (.inr rfl)

/-! What every next state of an instruction keeps. -/

theorem State.ip_takeAnswer (s : State) (cb : Nat) (code : Byte) : (s.takeAnswer cb code).2.ip = s.ip := by
  unfold State.ip State.reg
  rw [(s.takeAnswer_taken cb code).regs]

/-- No instruction counts itself: counting is the step's. -/
theorem ExecNext.count {i : Instr} {s t : State} (h : ExecNext s i t) : t.count = s.count := by
  cases h
  case returned u code cb hcb => exact (callbackCalls_keeps hcb).run.count.trans (s.takeAnswer_taken cb code).count
  case stopped u code cb hcb => exact (callbackCalls_keeps hcb).run.count.trans (s.takeAnswer_taken cb code).count
  all_goals rfl

/-- No instruction writes the configuration state. -/
theorem ExecNext.config {i : Instr} {s t : State} (h : ExecNext s i t) : SameConfig s t := by
  cases h
  case returned u code cb hcb =>
    have := (s.takeAnswer_taken cb code).config.trans (callbackCalls_keeps hcb).config
    exact ⟨this.1, this.2, this.3, this.4, this.5, this.6, this.7⟩
  case stopped u code cb hcb =>
    have := (s.takeAnswer_taken cb code).config.trans (callbackCalls_keeps hcb).config
    exact ⟨this.1, this.2, this.3, this.4, this.5, this.6, this.7⟩
  all_goals constructor <;> rfl

/-- An instruction leaves the run going, raises an error or finishes it. -/
theorem ExecNext.phase {i : Instr} {s t : State} (h : ExecNext s i t) :
    t.phase = s.phase ∨ (∃ e, t = s.raise e i.argLen) ∨ t.phase = .stopped .finished := by
  cases h
  case returned u code cb hcb => exact .inl ((callbackCalls_keeps hcb).run.phase.trans (s.takeAnswer_taken cb code).phase)
  case stopped => exact .inr (.inr rfl)
  case raised e => exact .inr (.inl ⟨e, rfl⟩)
  case halted => exact .inr (.inr rfl)
  all_goals exact .inl rfl

/-- The next states a running core can reach in one step. -/
inductive CoreNext (s : State) : State → Prop
  | fetchFailed (e : DecodeError) : CoreNext s (fetchFailed e s)
  | skipped (i : Instr) (h : s.skip = true) : CoreNext s (s.skipOver i.argLen)
  | counted {i : Instr} {t : State} (h : s.skip = false) (he : exec i s = .next t) (hr : t.phase = .running) : CoreNext s t.counted
  | ended {i : Instr} {t : State} (h : s.skip = false) (he : exec i s = .next t) (hr : t.phase ≠ .running) : CoreNext s t

/-- If a running core answers a next state, it is one of `CoreNext`. -/
theorem step_running_next {s t : State} (hp : s.phase = .running) (h : step s = .next t) : CoreNext s t := by
  simp only [step, machineStep, hp, coreStep] at h
  split at h
  · rename_i i rest _
    unfold executeOrSkip at h
    split at h
    · cases h
      exact .skipped i ‹_›
    · rename_i hskip
      unfold afterExec at h
      split at h
      · rename_i u hu
        split at h <;> cases h
        · exact .counted (by simpa using hskip) hu ‹_›
        · exact .ended (by simpa using hskip) hu ‹_›
      · cases h
      · cases h
  · cases h
    exact .fetchFailed _

/-- The step of a running core whose fetch decodes. -/
theorem step_of_decode {s : State} {i : Instr} {rest : List Byte} (hp : s.phase = .running)
    (hd : decode s.fetchBytes = .ok (i, rest)) : step s = executeOrSkip i s := by
  simp only [step, machineStep, hp, coreStep, hd]

/-- The step of a running core whose fetch fails. -/
theorem step_of_fetchFailed {s : State} {e : DecodeError} (hp : s.phase = .running) (hd : decode s.fetchBytes = .error e) :
    step s = .next (fetchFailed e s) := by simp only [step, machineStep, hp, coreStep, hd]

/-- The step outside a run. -/
theorem step_idle {s : State} (hp : s.phase ≠ .running) : step s = hostStep s := by
  unfold step machineStep
  split
  · exact absurd ‹_› hp
  · rfl
  · rfl

/-- The host's next call, answered. -/
theorem step_hostCall_ok {s t : State} {a : HostAction} {rest : List HostAction} (hp : s.phase ≠ .running)
    (hh : s.host = a :: rest) (hc : hostCall a { s with host := rest } = .ok t) : step s = .next t := by
  rw [step_idle hp]
  simp only [hostStep, hh, hc]

/-- The host's next call, refused. -/
theorem step_hostCall_error {s : State} {a : HostAction} {rest : List HostAction} {r : Refusal} (hp : s.phase ≠ .running)
    (hh : s.host = a :: rest) (hc : hostCall a { s with host := rest } = .error r) : step s = .refused r := by
  rw [step_idle hp]
  simp only [hostStep, hh, hc]

/-- A step outside a run does what `hostCall` does with the call. -/
theorem StepCalls.of_hostCall {a : HostAction} {f : State → Except Refusal State} (h : ∀ s, hostCall a s = f s) : StepCalls a f :=
  fun _ _ hp hh => ⟨fun _ ht => step_hostCall_ok hp hh ((h _).trans ht), fun _ hr => step_hostCall_error hp hh ((h _).trans hr)⟩

end Sys2Proof.Machine
end

