-- ==== Sys2Proof/Laws/PerInstr.lean ====
section
/-! SUPPORT. Per instruction: the bytes of its encoding begin with its opcode byte and are as many as the table says (30_encoding
R50, R51, R52). -/

namespace Sys2Proof

/-- No instruction has more operand bytes than `maxArgLen`. -/
theorem Op.argLen_le (o : Op) : o.argLen ≤ maxArgLen := by cases o <;> decide

theorem Instr.argLen_le (i : Instr) : i.argLen ≤ maxArgLen := Op.argLen_le i.op

theorem Instr.length_le (i : Instr) : i.length ≤ 1 + maxArgLen := Nat.add_le_add_left i.argLen_le 1

end Sys2Proof

namespace Sys2Proof.Laws

/-- An instruction's encoding is its opcode byte and its `L` operand bytes, 1 to 6 bytes together (R50, R52). -/
def EncodedLength.Statement (i : Instr) : Prop :=
  (encode i).head? = some (opcodeByte i.op) ∧ (encode i).length = i.length ∧ i.length ≤ 1 + maxArgLen

theorem EncodedLength.nop : EncodedLength.Statement .nop := ⟨rfl, rfl, Instr.length_le _⟩
theorem EncodedLength.halt : EncodedLength.Statement .halt := ⟨rfl, rfl, Instr.length_le _⟩
theorem EncodedLength.syscall (code : Byte) : EncodedLength.Statement (.syscall code) := ⟨rfl, rfl, Instr.length_le _⟩
theorem EncodedLength.lcons (r : RegField) (v : Word) : EncodedLength.Statement (.lcons r v) := ⟨rfl, rfl, Instr.length_le _⟩
theorem EncodedLength.mov (d r : RegField) : EncodedLength.Statement (.mov d r) := ⟨rfl, rfl, Instr.length_le _⟩
theorem EncodedLength.push (r : RegField) : EncodedLength.Statement (.push r) := ⟨rfl, rfl, Instr.length_le _⟩
theorem EncodedLength.pop (r : RegField) : EncodedLength.Statement (.pop r) := ⟨rfl, rfl, Instr.length_le _⟩
theorem EncodedLength.call (p : Addr) : EncodedLength.Statement (.call p) := ⟨rfl, rfl, Instr.length_le _⟩
theorem EncodedLength.ret : EncodedLength.Statement .ret := ⟨rfl, rfl, Instr.length_le _⟩
theorem EncodedLength.store (p : Addr) (r : RegField) : EncodedLength.Statement (.store p r) := ⟨rfl, rfl, Instr.length_le _⟩
theorem EncodedLength.load (r : RegField) (p : Addr) : EncodedLength.Statement (.load r p) := ⟨rfl, rfl, Instr.length_le _⟩
theorem EncodedLength.add (d r : RegField) : EncodedLength.Statement (.add d r) := ⟨rfl, rfl, Instr.length_le _⟩
theorem EncodedLength.sub (d r : RegField) : EncodedLength.Statement (.sub d r) := ⟨rfl, rfl, Instr.length_le _⟩
theorem EncodedLength.mul (d r : RegField) : EncodedLength.Statement (.mul d r) := ⟨rfl, rfl, Instr.length_le _⟩
theorem EncodedLength.div (d r : RegField) : EncodedLength.Statement (.div d r) := ⟨rfl, rfl, Instr.length_le _⟩
theorem EncodedLength.shl (d r : RegField) : EncodedLength.Statement (.shl d r) := ⟨rfl, rfl, Instr.length_le _⟩
theorem EncodedLength.shr (d r : RegField) : EncodedLength.Statement (.shr d r) := ⟨rfl, rfl, Instr.length_le _⟩
theorem EncodedLength.ishr (d r : RegField) : EncodedLength.Statement (.ishr d r) := ⟨rfl, rfl, Instr.length_le _⟩
theorem EncodedLength.and (d r : RegField) : EncodedLength.Statement (.and d r) := ⟨rfl, rfl, Instr.length_le _⟩
theorem EncodedLength.or (d r : RegField) : EncodedLength.Statement (.or d r) := ⟨rfl, rfl, Instr.length_le _⟩
theorem EncodedLength.xor (d r : RegField) : EncodedLength.Statement (.xor d r) := ⟨rfl, rfl, Instr.length_le _⟩
theorem EncodedLength.not (d : RegField) : EncodedLength.Statement (.not d) := ⟨rfl, rfl, Instr.length_le _⟩
theorem EncodedLength.jmp (p : Addr) : EncodedLength.Statement (.jmp p) := ⟨rfl, rfl, Instr.length_le _⟩
theorem EncodedLength.jr (r : RegField) : EncodedLength.Statement (.jr r) := ⟨rfl, rfl, Instr.length_le _⟩
theorem EncodedLength.skipz (r : RegField) : EncodedLength.Statement (.skipz r) := ⟨rfl, rfl, Instr.length_le _⟩
theorem EncodedLength.skipnz (r : RegField) : EncodedLength.Statement (.skipnz r) := ⟨rfl, rfl, Instr.length_le _⟩

end Sys2Proof.Laws
end

