-- ==== Sys2Proof/Laws/Fetch.lean ====
section
/-! SUPPORT. Operand bytes and their values, the opcode table in both directions, and what fetch reads from ROM. -/

namespace Sys2Proof

/-- The address of its two bytes. -/
theorem addrOfBytes_extract (t : Addr) : addrOfBytes (t.extractLsb' 0 8) (t.extractLsb' 8 8) = t := by
  apply BitVec.eq_of_toNat_eq
  have := t.isLt
  simp only [addrOfBytes, BitVec.toNat_ofNat, BitVec.extractLsb'_toNat, Nat.shiftRight_eq_div_pow]
  omega

/-- The two bytes of an address. -/
theorem addrBytes_addrOfBytes (lo hi : Byte) : addrBytes (addrOfBytes lo hi) = [lo, hi] := by
  have := lo.isLt
  have := hi.isLt
  simp only [addrBytes, List.cons.injEq, and_true]
  constructor <;> apply BitVec.eq_of_toNat_eq <;>
    simp only [addrOfBytes, BitVec.toNat_ofNat, BitVec.extractLsb'_toNat, Nat.shiftRight_eq_div_pow] <;> omega

/-- The constant of its four bytes. -/
theorem immOfBytes_extract (v : Word) :
    immOfBytes (v.extractLsb' 0 8) (v.extractLsb' 8 8) (v.extractLsb' 16 8) (v.extractLsb' 24 8) = v := by
  apply BitVec.eq_of_toNat_eq
  have := v.isLt
  simp only [immOfBytes, BitVec.toNat_ofNat, BitVec.extractLsb'_toNat, Nat.shiftRight_eq_div_pow]
  omega

/-- The four bytes of a constant. -/
theorem immBytes_immOfBytes (b0 b1 b2 b3 : Byte) : immBytes (immOfBytes b0 b1 b2 b3) = [b0, b1, b2, b3] := by
  have := b0.isLt
  have := b1.isLt
  have := b2.isLt
  have := b3.isLt
  simp only [immBytes, List.cons.injEq, and_true]
  refine ⟨?_, ?_, ?_, ?_⟩ <;> apply BitVec.eq_of_toNat_eq <;>
    simp only [immOfBytes, BitVec.toNat_ofNat, BitVec.extractLsb'_toNat, Nat.shiftRight_eq_div_pow] <;> omega

/-- An opcode byte selects its kind. -/
theorem opOfByte_opcodeByte (o : Op) : opOfByte (opcodeByte o) = some o := by cases o <;> rfl

/-- The opcode byte of the kind a byte selects is that byte. -/
theorem opcodeByte_getElem (b : Byte) (h : b.toNat < opcodeTable.length) : opcodeByte opcodeTable[b.toNat] = b := by
  have hall : ∀ n : Fin 26, (opcodeByte (opcodeTable[n.val]'(n.isLt))).toNat = n.val := by decide
  exact BitVec.eq_of_toNat_eq (hall ⟨b.toNat, h⟩)

theorem length_encode (i : Instr) : (encode i).length = 1 + i.argLen := by cases i <;> rfl

end Sys2Proof

namespace Sys2Proof.Machine

/-- Fetch reads the bytes that stand in ROM at IP. -/
theorem State.romBytes_of_holds (s : State) : ∀ (n a : Nat) (bs : List Byte), bs.length ≤ n →
    (∀ k (h : k < bs.length), s.rom.contains (a + k) = true ∧ s.byte (a + k) = bs[k]) → ∃ rest, s.romBytes a n = bs ++ rest
  | _, _, [], _, _ => ⟨_, rfl⟩
  | n + 1, a, b :: bs, hl, h => by
    obtain ⟨rest, hr⟩ := State.romBytes_of_holds s n (a + 1) bs (by simpa using hl) (fun k hk => by
      have := h (k + 1) (by simpa using hk)
      rw [show a + (k + 1) = a + 1 + k by omega] at this
      simpa using this)
    have h0 := h 0 (by simp)
    simp only [Nat.add_zero] at h0
    exact ⟨rest, by simp [State.romBytes, h0.1, hr, h0.2]⟩

/-- Fetch reads no byte at or after an address outside ROM. -/
theorem State.length_romBytes_le (s : State) : ∀ (n a k : Nat), s.rom.contains (a + k) = false → (s.romBytes a n).length ≤ k
  | 0, _, _, _ => by simp [State.romBytes]
  | n + 1, a, k, h => by
    unfold State.romBytes
    split
    · rename_i hc
      cases k with
      | zero => rw [Nat.add_zero] at h; rw [h] at hc; cases hc
      | succ k =>
        have := State.length_romBytes_le s n (a + 1) k (by rwa [show a + 1 + k = a + (k + 1) by omega])
        simpa using this
    · simp

/-- An instruction whose bytes stand in ROM at IP is in the fetched bytes. -/
theorem State.fetchBytes_of_holdsAt {s : State} {i : Instr} (h : s.holdsAt s.ip.toNat i) :
    ∃ rest, s.fetchBytes = encode i ++ rest :=
  s.romBytes_of_holds (1 + maxArgLen) s.ip.toNat (encode i) (by rw [length_encode]; have := i.argLen_le; omega) h

end Sys2Proof.Machine
end

