-- ==== Sys2Proof/Laws/Instr.lean ====
section
/-! SUPPORT. Each instruction on operands that name registers other than IP, as one equation, and the register checks of every
shape of instruction; the provers cite these instead of unfolding a meaning. -/

namespace Sys2Proof.Machine

/-! The register checks. -/

theorem checksRegisters_of_withReg {i : Instr} {b : RegField} (k : State → Reg → Effect) (hr : i.regFields = [b])
    (he : ∀ s, exec i s = withReg i.argLen b s (k s)) : ChecksRegisters i where
  invalid := fun h s => by
    have hb : ¬ b.toNat < registerCount := by simpa [Instr.regsInRange, hr] using h
    exact ⟨s.raise .invalidRegister i.argLen, by rw [he, withReg_invalid hb], RunEnds.of_endRun s _ _⟩
  ipOperand := fun _ h s => by
    have hb : b.toNat = Reg.ip.val := by simpa [Instr.namesNoIp, hr] using h
    rw [he, withReg_ip hb]

theorem checksRegisters_of_withRegs {i : Instr} {b c : RegField} (k : State → Reg → Reg → Effect) (hr : i.regFields = [b, c])
    (he : ∀ s, exec i s = withRegs i.argLen b c s (k s)) : ChecksRegisters i where
  invalid := fun h s => by
    have hb : ¬ (b.toNat < registerCount ∧ c.toNat < registerCount) := fun hh => by
      simp only [Instr.regsInRange, hr, List.all_cons, List.all_nil, hh.1, hh.2] at h
      cases h
    exact ⟨s.raise .invalidRegister i.argLen, by rw [he, withRegs_invalid hb], RunEnds.of_endRun s _ _⟩
  ipOperand := fun h1 h s => by
    have hb : b.toNat < registerCount ∧ c.toNat < registerCount := by simpa [Instr.regsInRange, hr] using h1
    have hip : b.toNat = Reg.ip.val ∨ c.toNat = Reg.ip.val := by
      by_contra hh
      obtain ⟨h2, h3⟩ := not_or.1 hh
      simp [Instr.namesNoIp, hr, h2, h3] at h
    rw [he, withRegs_ip hb.1 hb.2 hip]

/-- An instruction that raises `e` ends the run with it, having written nothing. -/
theorem Raises.of_eq {i : Instr} {s : State} {e : ErrCode} (h : exec i s = .next (s.raise e i.argLen)) : Raises i s e :=
  ⟨_, h, RunEnds.of_endRun s _ _⟩

/-! The instructions, each on valid operands. -/

section
variable {s : State} {d r : Reg}

theorem exec_lcons (v : Word) (hr : r ≠ Reg.ip) : exec (.lcons r.field v) s = .next (s.writeBack r v 5) := by
  simp only [exec, execLcons, withReg_field hr]

theorem exec_mov (hd : d ≠ Reg.ip) (hr : r ≠ Reg.ip) : exec (.mov d.field r.field) s = .next (s.writeBack d (s.reg r) 2) :=
  by simp only [exec, execMov, binary_field hd hr]

theorem exec_push (hr : r ≠ Reg.ip) : exec (.push r.field) s =
    if s.sp.toNat < 4 then .next (s.raise .stackOverflow 1)
    else if s.ram.size < s.sp.toNat then .fault .unspecStackRange else .next ((s.pushed r).advance 1) := by
  simp only [exec, execPush, withReg_field hr]

theorem exec_pop (hr : r ≠ Reg.ip) : exec (.pop r.field) s =
    if s.ram.size < s.sp.toNat + 4 then .next (s.raise .stackUnderflow 1)
    else if s.sp.toNat + 4 < s.programSize then .next (s.raise .stackOverflow 1)
    else .next ((s.popped r).advance 1) := by simp only [exec, execPop, withReg_field hr]

theorem exec_store (p : Addr) (hr : r ≠ Reg.ip) : exec (.store p r.field) s =
    if s.ram.containsWord p.toNat then .next ((s.storeWord p.toNat (s.reg r)).advance 3)
    else .next (s.raise .invalidAddress 3) := by simp only [exec, execStore, withReg_field hr]

theorem exec_load (p : Addr) (hr : r ≠ Reg.ip) : exec (.load r.field p) s =
    if s.ram.containsWord p.toNat then .next (s.writeBack r (s.loadWord p.toNat) 3)
    else .next (s.raise .invalidAddress 3) := by simp only [exec, execLoad, withReg_field hr]

theorem exec_add (hd : d ≠ Reg.ip) (hr : r ≠ Reg.ip) :
    exec (.add d.field r.field) s = .next (s.writeBack d (addWord (s.reg d) (s.reg r)) 2) := binary_field hd hr

theorem exec_sub (hd : d ≠ Reg.ip) (hr : r ≠ Reg.ip) :
    exec (.sub d.field r.field) s = .next (s.writeBack d (subWord (s.reg d) (s.reg r)) 2) := binary_field hd hr

theorem exec_mul (hd : d ≠ Reg.ip) (hr : r ≠ Reg.ip) :
    exec (.mul d.field r.field) s = .next (s.writeBack d (mulWord (s.reg d) (s.reg r)) 2) := binary_field hd hr

theorem exec_div (hd : d ≠ Reg.ip) (hr : r ≠ Reg.ip) : exec (.div d.field r.field) s =
    if (s.reg r).toNat = 0 then .fault .undefinedDivByZero
    else .next (s.writeBack d (divWord (s.reg d) (s.reg r)) 2) := by simp only [exec, execDiv, withRegs_field hd hr]

theorem exec_shl (hd : d ≠ Reg.ip) (hr : r ≠ Reg.ip) :
    exec (.shl d.field r.field) s = .next (s.writeBack d (shiftWord .shl (s.reg d) (s.reg r)) 2) := binary_field hd hr

theorem exec_shr (hd : d ≠ Reg.ip) (hr : r ≠ Reg.ip) :
    exec (.shr d.field r.field) s = .next (s.writeBack d (shiftWord .shr (s.reg d) (s.reg r)) 2) := binary_field hd hr

theorem exec_ishr (hd : d ≠ Reg.ip) (hr : r ≠ Reg.ip) :
    exec (.ishr d.field r.field) s = .next (s.writeBack d (shiftWord .ishr (s.reg d) (s.reg r)) 2) := binary_field hd hr

theorem exec_and (hd : d ≠ Reg.ip) (hr : r ≠ Reg.ip) :
    exec (.and d.field r.field) s = .next (s.writeBack d (s.reg d &&& s.reg r) 2) := binary_field hd hr

theorem exec_or (hd : d ≠ Reg.ip) (hr : r ≠ Reg.ip) :
    exec (.or d.field r.field) s = .next (s.writeBack d (s.reg d ||| s.reg r) 2) := binary_field hd hr

theorem exec_xor (hd : d ≠ Reg.ip) (hr : r ≠ Reg.ip) :
    exec (.xor d.field r.field) s = .next (s.writeBack d (s.reg d ^^^ s.reg r) 2) := binary_field hd hr

theorem exec_not (hd : d ≠ Reg.ip) : exec (.not d.field) s = .next (s.writeBack d (notWord (s.reg d)) 1) := by
  simp only [exec, execNot, withReg_field hd]

theorem exec_jr (hr : r ≠ Reg.ip) : exec (.jr r.field) s = .next (s.jump (low16 (s.reg r))) := by
  simp only [exec, execJr, withReg_field hr]

theorem exec_skipz (hr : r ≠ Reg.ip) : exec (.skipz r.field) s = .next ((s.setSkip (idIsZero r)).advance 1) := by
  simp only [exec, execSkipz, withReg_field hr]

theorem exec_skipnz (hr : r ≠ Reg.ip) : exec (.skipnz r.field) s = .next ((s.setSkip (!idIsZero r)).advance 1) :=
  by simp only [exec, execSkipnz, withReg_field hr]

end

/-! The values. -/

/-- SP minus 4 where PUSH admits it. -/
theorem toNat_sub_four {w : Word} (h : 4 ≤ w.toNat) : (w - 4).toNat = w.toNat - 4 := by
  have hw := w.isLt
  rw [BitVec.toNat_sub, show (4 : Word).toNat = 4 from rfl]
  omega

/-- What PUSH does to the state: SP moved, and one word stored (R100). -/
theorem State.pushed_eq {s : State} {r : Reg} (h4 : 4 ≤ s.sp.toNat) :
    s.pushed r = (s.setReg Reg.sp (s.sp - 4)).storeWord (s.ram.base.toNat + (s.sp.toNat - 4))
      (if r = Reg.sp then s.sp - 4 else s.reg r) := by
  have hsp : (s.setReg Reg.sp (s.sp - 4)).sp = s.sp - 4 := State.reg_setReg_self s Reg.sp _
  simp only [State.pushed, hsp, State.stackWrite, State.slot, toNat_sub_four h4, State.ram_setReg]
  congr 1
  split
  · subst r
    exact State.reg_setReg_self s Reg.sp _
  · exact State.reg_setReg_ne s _ ‹_›

@[simp] theorem State.ip_pushed (s : State) (r : Reg) : (s.pushed r).ip = s.ip := by
  simp [State.pushed, Reg.sp_ne_ip]

@[simp] theorem State.ip_popped (s : State) {r : Reg} (hr : r ≠ Reg.ip) : (s.popped r).ip = s.ip := by
  simp [State.popped, Reg.sp_ne_ip, hr]

/-- ISHR by an amount in range is the arithmetic shift of bit vectors. -/
theorem shiftExact_ishr (x : Word) (n : Nat) : shiftExact .ishr x n = x.sshiftRight n := by
  simp [shiftExact, BitVec.sshiftRight, Int.shiftRight_eq_div_pow]

/-- The complement of `x` is `0xFFFFFFFF - x` (R131). -/
theorem notWord_eq (x : Word) : notWord x = 0xFFFFFFFF - x := (BitVec.allOnes_sub_eq_not x).symm

end Sys2Proof.Machine
end

