-- ==== Sys2Proof/Tests/Slice0.lean ====
section
/-! SUPPORT. Tests. Expected values come from the examples of the rules and the vectors of 95_test_vectors (named in each comment);
the last part shows, for each obligation with hypotheses, concrete states and operands that meet them. -/

namespace Sys2Proof.Tests

open Sys2Proof.Machine

/-! WellFormed: one ill-formed term for each check (R12, R14, R53). -/

theorem test_wellFormed_accepts : Instr.wellFormed (.mov 20 0) = true := by decide

theorem test_wellFormed_refuses_id_21 : Instr.regsInRange (.mov 21 0) = false ∧ Instr.wellFormed (.mov 21 0) = false := by decide

theorem test_wellFormed_refuses_second_operand : Instr.regsInRange (.add 0 255) = false := by decide

theorem test_wellFormed_refuses_ip : Instr.namesNoIp (.push 16) = false ∧ Instr.wellFormed (.push 16) = false := by decide

/-! Decoding: bytes written out from the Encoding line of each instruction's rule (R90 to R137). -/

theorem test_decode_system :
    decode [0x00] = .ok (.nop, []) ∧ decode [0x01] = .ok (.halt, []) ∧ decode [0x02, 0x07, 0x01] = .ok (.syscall 7, [0x01]) := by
  decide

/-- M1 and P1: the immediate is little-endian. -/
theorem test_decode_move :
    decode [0x03, 0x00, 0x44, 0x33, 0x22, 0x11] = .ok (.lcons 0 0x11223344, []) ∧
    decode [0x04, 0x06, 0x00] = .ok (.mov 6 0, []) := by decide

theorem test_decode_stack_call :
    decode [0x05, 0x00] = .ok (.push 0, []) ∧ decode [0x06, 0x01] = .ok (.pop 1, []) ∧
    decode [0x07, 0x0A, 0x00] = .ok (.call 0x000A, []) ∧ decode [0x08] = .ok (.ret, []) := by decide

/-- P1: STORE has the address first, LOAD the register. -/
theorem test_decode_store_load :
    decode [0x09, 0x10, 0x80, 0x00] = .ok (.store 0x8010 0, []) ∧ decode [0x0A, 0x06, 0x10, 0x80] = .ok (.load 6 0x8010, []) := by
  decide

theorem test_decode_arithmetic :
    decode [0x0B, 0x02, 0x00] = .ok (.add 2 0, []) ∧ decode [0x0C, 0x00, 0x01] = .ok (.sub 0 1, []) ∧
    decode [0x0D, 0x06, 0x08] = .ok (.mul 6 8, []) ∧ decode [0x0E, 0x00, 0x01] = .ok (.div 0 1, []) := by decide

theorem test_decode_shift :
    decode [0x0F, 0x00, 0x01] = .ok (.shl 0 1, []) ∧ decode [0x10, 0x06, 0x07] = .ok (.shr 6 7, []) ∧
    decode [0x11, 0x00, 0x01] = .ok (.ishr 0 1, []) := by decide

theorem test_decode_logic :
    decode [0x12, 0x00, 0x01] = .ok (.and 0 1, []) ∧ decode [0x13, 0x00, 0x01] = .ok (.or 0 1, []) ∧
    decode [0x14, 0x00, 0x01] = .ok (.xor 0 1, []) ∧ decode [0x15, 0x03] = .ok (.not 3, []) := by decide

theorem test_decode_jump_skip :
    decode [0x16, 0x1E, 0x00] = .ok (.jmp 0x001E, []) ∧ decode [0x17, 0x06] = .ok (.jr 6, []) ∧
    decode [0x18, 0x00] = .ok (.skipz 0, []) ∧ decode [0x19, 0x01] = .ok (.skipnz 1, []) := by decide

/-- R55, Q1: 0x19 is the last opcode byte, 0x1A the first unknown one; R56: too few bytes, and none. -/
theorem test_decode_rejects :
    decode [0x1A] = .error (.unknownOpcode 0x1A) ∧ decode [0xFF] = .error (.unknownOpcode 0xFF) ∧
    decode [0x03, 0x00, 0x01, 0x00, 0x00] = .error (.truncated 5) ∧ decode [] = .error .noBytes := by decide

/-- The word of the table's bits: bit 0 is the least significant bit of the first byte. -/
theorem test_decodeTableWord : decodeTableWord 48 0x112233440003 = some (.lcons 0 0x11223344) ∧ decodeTableWord 8 0x1A = none := by
  decide

/-! One step of each instruction. -/

/-- A run in progress on the reference platform after reset, the bytes standing in ROM at 0 (95_test_vectors section 0). -/
def start (bs : List Byte) : State := State.reset.placed bs

/-- R0 holds `a` and R1 holds `b` (the harness of 95_test_vectors 2.7). -/
def start2 (bs : List Byte) (a b : Word) : State := ((start bs).setReg 0 a).setReg 1 b

/-- The step answers a next state with property `p`. -/
def stepsTo (s : State) (p : State → Bool) : Bool :=
  match step s with
  | .next t => p t
  | .fault _ => false
  | .refused _ => false

/-- The step is the fault `f`. -/
def faultsWith (s : State) (f : Fault) : Bool :=
  match step s with
  | .next _ => false
  | .fault g => g = f
  | .refused _ => false

/-- The step is the refusal `r`. -/
def refusesWith (s : State) (r : Refusal) : Bool :=
  match step s with
  | .next _ => false
  | .fault _ => false
  | .refused k => k = r

/-- The run ended with error `e`, R0, SP and the counter as before. -/
def endsWith (s : State) (e : ErrCode) : Bool :=
  stepsTo s fun t => t.phase = .stopped (.error e) ∧ t.reg 0 = s.reg 0 ∧ t.sp = s.sp ∧ t.count = s.count ∧ t.mem = s.mem

/-- S1: NOP moves IP by 1 and is counted. -/
theorem test_nop : stepsTo (start [0x00, 0x01]) (fun t => t.ip = 1 ∧ t.count = 1 ∧ t.phase = .running) = true := by decide

/-- S2: HALT at 0: FINISHED, IP = 0, not counted. -/
theorem test_halt : stepsTo (start [0x01]) (fun t => t.ip = 0 ∧ t.count = 0 ∧ t.phase = .stopped .finished) = true := by decide

/-- S3: no callback. -/
theorem test_syscall_unhandled : endsWith (start [0x02, 0x07, 0x01]) .unhandledInterrupt = true := by decide

/-- S6: the callback sets R0 = 0x55 and RAM byte 0x8000 = 0xAA and returns true. -/
theorem test_syscall_host :
    stepsTo { start [0x02, 0x00, 0x01] with
        callback := some 0, hostAnswers := [⟨[.setRegister 0 0x55, .writeByte 0x8000 0xAA], true⟩] }
      (fun t => t.reg 0 = 0x55 ∧ t.byte 0x8000 = 0xAA ∧ t.ip = 2 ∧ t.count = 1 ∧ t.phase = .running) = true := by decide

/-- M1. -/
theorem test_lcons : stepsTo (start [0x03, 0x00, 0x44, 0x33, 0x22, 0x11]) (fun t => t.reg 0 = 0x11223344 ∧ t.ip = 6) = true := by
  decide

/-- P8-6: register byte 21. -/
theorem test_lcons_invalid : endsWith (start [0x03, 0x15, 0x01, 0x00, 0x00, 0x00]) .invalidRegister = true := by decide

/-- M5: MOV from SP. -/
theorem test_mov : stepsTo (start [0x04, 0x01, 0x12]) (fun t => t.reg 1 = 0x100 ∧ t.sp = 0x100 ∧ t.ip = 3) = true := by decide

/-- Q16: MOV from IP. -/
theorem test_mov_ip : faultsWith (start [0x04, 0x00, 0x10]) .refusedIpOperand = true := by decide

/-- R100's example: the slot below SP, little-endian. -/
theorem test_push :
    stepsTo ((start [0x05, 0x00]).setReg 0 0x11223344)
      (fun t => t.sp = 0xFC ∧ t.byte 0x80FC = 0x44 ∧ t.byte 0x80FD = 0x33 ∧ t.byte 0x80FE = 0x22 ∧ t.byte 0x80FF = 0x11) = true := by
  decide

/-- K8: PUSH SP stores the decremented value. -/
theorem test_push_sp : stepsTo (start [0x05, 0x12]) (fun t => t.sp = 0xFC ∧ t.loadWord 0x80FC = 0xFC) = true := by decide

/-- K11: POP needs no PUSH; the word is little-endian. -/
theorem test_pop :
    stepsTo { (start [0x06, 0x01]).setReg Reg.sp 0xFC with mem := Memory.load (start [0x06, 0x01]).mem 0x80FC [1, 2, 3, 4] }
      (fun t => t.reg 1 = 0x04030201 ∧ t.sp = 0x100 ∧ t.ip = 2) = true := by decide

/-- K9: POP SP leaves the slot's value plus 4. -/
theorem test_pop_sp :
    stepsTo { (start [0x06, 0x12]).setReg Reg.sp 0xFC with mem := Memory.load (start [0x06, 0x12]).mem 0x80FC [0x40] }
      (fun t => t.sp = 0x44) = true := by decide

/-- P2: CALL links the address after its three bytes. -/
theorem test_call : stepsTo (start [0x07, 0x0A, 0x00]) (fun t => t.reg Reg.ra = 3 ∧ t.ip = 0xA ∧ t.sp = 0x100) = true := by decide

/-- R105: the target is checked before RA is written. -/
theorem test_call_outside : endsWith ((start [0x07, 0x00, 0x01]).setReg Reg.ra 9) .invalidAddress = true := by decide

/-- Q12 and R106: RET takes all 32 bits of RA. -/
theorem test_ret : stepsTo ((start [0x08]).setReg Reg.ra 0x00010009) (fun t => t.ip = 0x00010009 ∧ t.reg Reg.ra = 0x00010009) = true := by
  decide

/-- L11: STORE of SP. -/
theorem test_store :
    stepsTo (start [0x09, 0x00, 0x80, 0x12]) (fun t => t.byte 0x8000 = 0 ∧ t.byte 0x8001 = 1 ∧ t.byte 0x8002 = 0 ∧ t.ip = 4) = true := by
  decide

/-- R110: the last three addresses of RAM do not hold a word. -/
theorem test_store_edge : endsWith ((start [0x09, 0xFD, 0x80, 0x00]).setReg 0 7) .invalidAddress = true := by decide

/-- R111: LOAD, little-endian and unaligned. -/
theorem test_load :
    stepsTo { start [0x0A, 0x02, 0x11, 0x80] with mem := Memory.load (start [0x0A, 0x02, 0x11, 0x80]).mem 0x8010 [0x44, 0x33, 0xDD, 0xCC, 0xBB] }
      (fun t => t.reg 2 = 0xBBCCDD33 ∧ t.ip = 4) = true := by decide

/-- R111: an address in ROM is rejected. -/
theorem test_load_rom : endsWith (start [0x0A, 0x00, 0x00, 0x00]) .invalidAddress = true := by decide

/-- 2.7: the carry is lost and OV is not written. -/
theorem test_add : stepsTo (start2 [0x0B, 0x00, 0x01] 0xFFFFFFFF 1) (fun t => t.reg 0 = 0 ∧ t.reg 1 = 1 ∧ t.reg Reg.ov = 0) = true := by
  decide

/-- 2.7: doubling. -/
theorem test_add_same : stepsTo (start2 [0x0B, 0x00, 0x00] 0x40000001 0) (fun t => t.reg 0 = 0x80000002) = true := by decide

/-- 2.7: the borrow is lost. -/
theorem test_sub : stepsTo (start2 [0x0C, 0x00, 0x01] 3 5) (fun t => t.reg 0 = 0xFFFFFFFE ∧ t.reg 1 = 5) = true := by decide

/-- 2.7: the low 32 bits of the product. -/
theorem test_mul : stepsTo (start2 [0x0D, 0x00, 0x01] 0x12345678 0x9ABCDEF0) (fun t => t.reg 0 = 0x242D2080) = true := by decide

/-- 2.7: DIV is unsigned. -/
theorem test_div : stepsTo (start2 [0x0E, 0x00, 0x01] 0xFFFFFFF9 2) (fun t => t.reg 0 = 0x7FFFFFFC) = true := by decide

/-- 2.7: a zero divisor. -/
theorem test_div_zero : faultsWith (start2 [0x0E, 0x00, 0x01] 9 0) .undefinedDivByZero = true := by decide

/-- 2.8: bit 31 is shifted out. -/
theorem test_shl : stepsTo (start2 [0x0F, 0x00, 0x01] 0x80000001 1) (fun t => t.reg 0 = 2) = true := by decide

/-- 2.8: an amount of 32 completes; its result is open. -/
theorem test_shl_wide : stepsTo (start2 [0x0F, 0x00, 0x01] 1 32) (fun t => t.ip = 3 ∧ t.count = 1) = true := by decide

/-- 2.8: zeros enter. -/
theorem test_shr : stepsTo (start2 [0x10, 0x00, 0x01] 0x80000001 1) (fun t => t.reg 0 = 0x40000000) = true := by decide

/-- 2.8: -7 by 1 is -4. -/
theorem test_ishr : stepsTo (start2 [0x11, 0x00, 0x01] 0xFFFFFFF9 1) (fun t => t.reg 0 = 0xFFFFFFFC) = true := by decide

/-- 2.8: a positive value shifts as SHR does. -/
theorem test_ishr_positive : stepsTo (start2 [0x11, 0x00, 0x01] 0x7FFFFFFF 4) (fun t => t.reg 0 = 0x07FFFFFF) = true := by decide

/-- 2.9. -/
theorem test_and : stepsTo (start2 [0x12, 0x00, 0x01] 0xF0F0F0F0 0xFF00FF00) (fun t => t.reg 0 = 0xF000F000) = true := by decide

/-- 2.9. -/
theorem test_or : stepsTo (start2 [0x13, 0x00, 0x01] 0xF0F0F0F0 0xFF00FF00) (fun t => t.reg 0 = 0xFFF0FFF0) = true := by decide

/-- 2.9. -/
theorem test_xor : stepsTo (start2 [0x14, 0x00, 0x01] 0xF0F0F0F0 0xFF00FF00) (fun t => t.reg 0 = 0x0FF00FF0) = true := by decide

/-- 2.9. -/
theorem test_not : stepsTo (start2 [0x15, 0x00] 0x0F0F0F0F 0) (fun t => t.reg 0 = 0xF0F0F0F0 ∧ t.ip = 2) = true := by decide

/-- R134 and J1: 0x00FF is the last target of JMP, 0x0100 is none. -/
theorem test_jmp : stepsTo (start [0x16, 0xFF, 0x00]) (fun t => t.ip = 0xFF) = true := by decide

theorem test_jmp_outside : endsWith (start [0x16, 0x00, 0x01]) .invalidAddress = true := by decide

/-- J5: JR takes the low 16 bits. -/
theorem test_jr : stepsTo ((start [0x17, 0x06]).setReg 6 0x00010009) (fun t => t.ip = 9 ∧ t.phase = .running) = true := by decide

/-- P8-4: SKIPZ of register 0 arms the flag whatever R0 holds. -/
theorem test_skipz : stepsTo (start2 [0x18, 0x00] 0x12345678 0) (fun t => t.skip = true ∧ t.ip = 2) = true := by decide

/-- J7: index 1 is not zero. -/
theorem test_skipz_other : stepsTo (start2 [0x18, 0x01] 0 0) (fun t => t.skip = false ∧ t.ip = 2) = true := by decide

/-- J10: SKIPNZ of register 1 arms the flag although R1 holds 0. -/
theorem test_skipnz : stepsTo (start2 [0x19, 0x01] 0 0) (fun t => t.skip = true) = true := by decide

/-- J8: index 0 does not arm it. -/
theorem test_skipnz_zero : stepsTo (start2 [0x19, 0x00] 7 0) (fun t => t.skip = false) = true := by decide

/-! The sequencer. -/

/-- P8-4: a skipped PUSH whose register byte is 0x63 is not examined. -/
theorem test_skip_consumes :
    stepsTo { start [0x05, 0x63] with skip := true } (fun t => t.skip = false ∧ t.ip = 2 ∧ t.sp = 0x100 ∧ t.count = 1) = true := by
  decide

/-- P8-4: the opcode check precedes the skip test, and the flag stays. -/
theorem test_skip_unknown_opcode :
    stepsTo { start [0x1A] with skip := true } (fun t => t.skip = true ∧ t.phase = .stopped (.error .unknownOpcode)) = true := by decide

/-- Q4: LCONS at 0x00FB needs a byte at 0x0100. -/
theorem test_truncated :
    endsWith { (start []).setReg Reg.ip 0xFB with mem := Memory.load [] 0xFB [0x03, 0x00, 0x01] } .invalidAddress = true := by decide

/-- Q7: all 32 bits of IP are compared. -/
theorem test_ip_outside : endsWith ((start []).setReg Reg.ip 0x00010000) .invalidAddress = true := by decide

/-- P8-5: `run(3, 1)` on `nop; nop; halt` pauses after one instruction. -/
theorem test_budget :
    stepsTo { start [0x00, 0x00, 0x01] with maxInstructions := 1 } (fun t => t.ip = 1 ∧ t.count = 1 ∧ t.phase = .stopped .paused) = true := by
  decide

/-- HALT wins over the budget (R91). -/
theorem test_halt_budget :
    stepsTo { start [0x01] with maxInstructions := 1 } (fun t => t.phase = .stopped .finished ∧ t.count = 0) = true := by decide

/-! The host. -/

/-- H2: SP is the size of RAM, wherever RAM is. -/
theorem test_initialize :
    stepsTo { State.reset with host := [.bind ⟨0, 2⟩ ⟨0x0100, 0x40⟩ [0x00, 0x01] 8] }
      (fun t => t.sp = 0x40 ∧ t.byte 1 = 1 ∧ t.byte 0x0100 = 0 ∧ t.ip = 0 ∧ t.phase = .ready) = true := by decide

/-- H5: `raw_push(0x11223344)` after reset. -/
theorem test_rawPush :
    stepsTo { State.reset with host := [.rawPush 0x11223344] } (fun t => t.sp = 0xFC ∧ t.loadWord 0x80FC = 0x11223344) = true := by
  decide

/-- H10: `set_register(16, 0x0024)` between runs. -/
theorem test_setRegister :
    stepsTo { State.reset with host := [.setRegister 16 0x24] } (fun t => t.ip = 0x24 ∧ t.phase = .ready) = true := by decide

/-- H7: `raw_pop()` after reset. -/
theorem test_rawPop_refused : refusesWith { State.reset with host := [.rawPop] } .rawStackOutsideRam = true := by decide

/-- H8 and H9: `memory(0x8010)`, and an address in neither region. -/
theorem test_memory :
    hostMemory 0x8010 State.reset = .ok (.ram 0x10) ∧ hostMemory 0x0010 State.reset = .ok (.rom 0x10) ∧
    hostMemory 0x4000 State.reset = .error .addressUnmapped := by decide

/-- R158: between runs, with no call of the host pending, the core is idle. -/
theorem test_idle : stepsTo State.reset (fun t => t = State.reset) = true := by decide

/-! Memory keeps its form. -/

theorem test_memory_canonical : Memory.wf (Memory.write (Memory.write [(5, 1)] 3 2) 5 0) := by decide

theorem test_reset_memory : State.reset.mem.wf := by decide

/-! Witnesses: for each obligation with hypotheses, states and operands that meet them, at the boundary of each clause. -/

theorem witness_DecodeByOpcodeByteAlone :
    26 ≤ (0x1A : Byte).toNat ∧ (0x19 : Byte).toNat < opcodeTable.length ∧
    ([] : List Byte).length < (opcodeTable[(0x19 : Byte).toNat]).argLen ∧
    (opcodeTable[(0x19 : Byte).toNat]).argLen ≤ ([0x14] : List Byte).length ∧
    (opcodeTable[(0x00 : Byte).toNat]).argLen ≤ ([] : List Byte).length := by decide

/-- A fault (DIV by zero), a refusal (a callback that calls `run`), a stop (HALT) and a next instruction (NOP), each at IP. -/
theorem witness_StepRunsInstructionAtIp_fault :
    (start2 [0x0E, 0x00, 0x01] 9 0).phase = .running ∧ (start2 [0x0E, 0x00, 0x01] 9 0).skip = false ∧
    (start2 [0x0E, 0x00, 0x01] 9 0).holdsAt (start2 [0x0E, 0x00, 0x01] 9 0).ip.toNat (.div 0 1) ∧
    exec (.div 0 1) (start2 [0x0E, 0x00, 0x01] 9 0) = .fault .undefinedDivByZero := by
  refine ⟨by decide, by decide, ?_, rfl⟩
  unfold State.holdsAt
  decide

/-- A SYSCALL whose callback calls `run`. -/
def badCallback : State := { start [0x02, 0x07] with callback := some 0, hostAnswers := [⟨[.run 0 0], true⟩] }

theorem witness_StepRunsInstructionAtIp_refused :
    badCallback.phase = .running ∧ badCallback.skip = false ∧ badCallback.holdsAt badCallback.ip.toNat (.syscall 7) ∧
    exec (.syscall 7) badCallback = .refused .notPermittedInCallback := by
  refine ⟨by decide, by decide, ?_, rfl⟩
  unfold State.holdsAt
  decide

theorem witness_StepRunsInstructionAtIp_stopped :
    (start [0x01]).phase = .running ∧ (start [0x01]).skip = false ∧ (start [0x01]).holdsAt (start [0x01]).ip.toNat .halt ∧
    exec .halt (start [0x01]) = .next ((start [0x01]).finish 0) ∧ ((start [0x01]).finish 0).phase ≠ .running := by
  refine ⟨by decide, by decide, ?_, rfl, by decide⟩
  unfold State.holdsAt
  decide

theorem witness_StepRunsInstructionAtIp_next :
    (start [0x00]).phase = .running ∧ (start [0x00]).skip = false ∧ (start [0x00]).holdsAt (start [0x00]).ip.toNat .nop ∧
    exec .nop (start [0x00]) = .next ((start [0x00]).advance 0) ∧ ((start [0x00]).advance 0).phase = .running := by
  refine ⟨by decide, by decide, ?_, rfl, by decide⟩
  unfold State.holdsAt
  decide

/-- A pending skip in front of a PUSH of register 0x63, which is never examined. -/
def skipPush : State := { start [0x05, 0x63] with skip := true }

theorem witness_SkipConsumesOneInstruction :
    skipPush.phase = .running ∧ skipPush.skip = true ∧ skipPush.holdsAt skipPush.ip.toNat (.push 0x63) := by
  refine ⟨by decide, by decide, ?_⟩
  unfold State.holdsAt
  decide

/-- IP one past ROM, and at 2^16. -/
theorem witness_FetchChecksEndRun_outside : ∀ a ∈ [(0x0100 : Word), 0x00010000],
    ((start []).setReg Reg.ip a).phase = .running ∧
    ¬ (((start []).setReg Reg.ip a).rom.base.toNat ≤ ((start []).setReg Reg.ip a).ip.toNat ∧ ((start []).setReg Reg.ip a).ip.toNat <
      ((start []).setReg Reg.ip a).rom.base.toNat + ((start []).setReg Reg.ip a).rom.size) := by
  simp [start, State.placed, State.ip, State.reset, referenceRom]

/-- The first unknown opcode byte, at the first address of ROM. -/
theorem witness_FetchChecksEndRun_unknown :
    (start [0x1A]).phase = .running ∧ (start [0x1A]).rom.contains (start [0x1A]).ip.toNat = true ∧
    26 ≤ ((start [0x1A]).byte (start [0x1A]).ip.toNat).toNat := by decide

/-- LCONS whose last operand byte would be at 0x0100. -/
def truncatedLcons : State := { (start []).setReg Reg.ip 0xFB with mem := [(0xFB, 0x03)] }

theorem witness_FetchChecksEndRun_truncated :
    truncatedLcons.phase = .running ∧ truncatedLcons.rom.contains truncatedLcons.ip.toNat = true ∧
    opcodeTable[(truncatedLcons.byte truncatedLcons.ip.toNat).toNat]? = some .lcons ∧ 0 < Op.lcons.argLen ∧
    truncatedLcons.rom.contains (truncatedLcons.ip.toNat + Op.lcons.argLen) = false := by decide

/-- The run goes on; it pauses; it finishes; it ends with an error: the step answers a next state each time. -/
theorem witness_EveryInstructionCostsOne :
    (start [0x00]).phase = .running ∧ stepsTo (start [0x00]) (fun t => t.phase = .running) = true ∧
    stepsTo { start [0x00] with maxInstructions := 1 } (fun t => t.phase = .stopped .paused) = true ∧
    stepsTo (start [0x01]) (fun t => t.phase = .stopped .finished) = true ∧
    stepsTo (start [0x1A]) (fun t => t.phase = .stopped (.error .unknownOpcode)) = true := by decide

theorem witness_BudgetedRunReturns :
    ({ start [] with maxInstructions := 1 } : State).phase = .running ∧
    ({ start [] with maxInstructions := 1 } : State).count < ({ start [] with maxInstructions := 1 } : State).maxInstructions := by
  decide

/-- A running state with a budget meets the invariant, and its step answers a next state. -/
theorem witness_StepKeepsInvariant :
    ({ start [0x00] with maxInstructions := 1 } : State).Inv ∧
    stepsTo { start [0x00] with maxInstructions := 1 } (fun _ => true) = true :=
  ⟨⟨by decide, by decide, by decide, by decide, by decide⟩, by decide⟩

theorem witness_ConfigurationOnlyByHost :
    (start [0x00]).phase = .running ∧ stepsTo (start [0x00]) (fun _ => true) = true := by decide

/-- The instruction answers a next state with property `p`. -/
def runsTo (i : Instr) (s : State) (p : State → Bool) : Bool :=
  match exec i s with
  | .next t => p t
  | .fault _ => false
  | .refused _ => false

/-- STORE at the last word of RAM; the byte below RAM and the one above it. -/
theorem witness_NoInstructionWritesOutsideRam :
    Instr.op (.store 0x80FC 0) ≠ .syscall ∧ (start []).mem.wf ∧ runsTo (.store 0x80FC 0) (start []) (fun _ => true) = true ∧
    (start []).ram.contains 0x7FFF = false ∧ (start []).ram.contains 0x8100 = false := by decide

theorem witness_ErrorsArePrecise :
    (start []).phase = .running ∧
    runsTo (.pop 0) (start []) (fun t => t.phase = .stopped (.error .stackUnderflow)) = true := by decide

theorem witness_OnlySkipInstructionsWriteSkip :
    Instr.op (.jr 0) ≠ .skipz ∧ Instr.op (.jr 0) ≠ .skipnz ∧ runsTo (.jr 0) (start []) (fun _ => true) = true := by decide

theorem witness_OnlyJumpsLeaveSequence :
    Instr.op (.skipz 0) ≠ .call ∧ Instr.op (.skipz 0) ≠ .ret ∧ Instr.op (.skipz 0) ≠ .jmp ∧ Instr.op (.skipz 0) ≠ .jr ∧
    (start []).phase = .running ∧ runsTo (.skipz 0) (start []) (fun t => t.phase = .running) = true := by decide

/-- OV after an ADD that names R0. -/
theorem witness_RegistersChangeOnlyAsNamed :
    Instr.op (.add 0 1) ≠ .syscall ∧ runsTo (.add 0 1) (start []) (fun _ => true) = true ∧ Reg.ov ≠ Reg.ip ∧
    ¬ Instr.mayWrite (.add 0 1) Reg.ov := by
  unfold Instr.mayWrite
  decide

/-- POP, the one instruction that reads `program_size`, and PUSH, which does not. -/
theorem witness_CountAndHintInvisible :
    runsTo (.pop 0) ((start []).setReg Reg.sp 0xFC) (fun _ => true) = true ∧ runsTo (.push 0) (start []) (fun _ => true) = true ∧
    Instr.op (.push 0) ≠ .pop := by decide

theorem witness_SkipIgnoresRegisterValues :
    Instr.op (.skipz 0) = .skipz ∧ Instr.op (.skipnz 0) = .skipnz ∧ (0 : Reg) ≠ Reg.ip ∧
    runsTo (.skipz 0) (start []) (fun _ => true) = true ∧ runsTo (.skipnz 0) (start []) (fun _ => true) = true := by decide

/-- HALT at IP, with and without a pending skip. -/
theorem witness_HaltEndsRun :
    (start [0x01]).phase = .running ∧ (start [0x01]).holdsAt (start [0x01]).ip.toNat .halt ∧ (start [0x01]).skip = false ∧
    regionsValid (start [0x01]).rom (start [0x01]).ram = true ∧
    ({ start [0x01] with skip := true } : State).phase = .running ∧
    ({ start [0x01] with skip := true } : State).holdsAt ({ start [0x01] with skip := true } : State).ip.toNat .halt := by
  unfold State.holdsAt
  decide

/-- A registered callback with an answer waiting. -/
def answered (keepGoing : Bool) : State := { start [] with callback := some 0, hostAnswers := [⟨[.setRegister 0 7], keepGoing⟩] }

theorem witness_SyscallCallsHost_none : (start []).callback = none := by decide

theorem witness_SyscallCallsHost_answer : ∀ b : Bool,
    (answered b).callback = some 0 ∧ ((answered b).takeAnswer 0 7).1.keepGoing = b ∧
    callbackCalls ((answered b).takeAnswer 0 7).1.acts ((answered b).takeAnswer 0 7).2 =
      .ok (((answered b).takeAnswer 0 7).2.setReg 0 7) := by
  intro b
  exact ⟨rfl, rfl, rfl⟩

theorem witness_SyscallCallsHost_refused :
    badCallback.callback = some 0 ∧
    callbackCalls (badCallback.takeAnswer 0 7).1.acts (badCallback.takeAnswer 0 7).2 = .error .notPermittedInCallback := by
  exact ⟨rfl, rfl⟩

/-- What a callback's calls come to: the refusal, or none and the value of R0. -/
def callbackEnd (acts : List HostAction) (s : State) : Option Refusal × Word :=
  match callbackCalls acts s with
  | .ok t => (none, t.reg 0)
  | .error r => (some r, 0)

/-- Calls that are answered, and calls of which the last is refused. -/
theorem witness_CallbackPowersBounded :
    callbackEnd [.setRegister 0 7, .getRegister 20, .getRegister 16] (start []) = (none, 7) ∧ (20 : Nat) ≠ 16 ∧
    callbackEnd [.setRegister 0 7, .rawPop] (start []) = (some .rawStackOutsideRam, 0) := by decide

/-- R0 and OV are registers other than IP; 21 is the first invalid byte; 16 names IP. -/
theorem witness_LconsLoadsConstant :
    (0 : Reg) ≠ Reg.ip ∧ Reg.ov ≠ Reg.ip ∧ Instr.regsInRange (.lcons 21 0) = false ∧
    Instr.regsInRange (.lcons 16 0) = true ∧ Instr.namesNoIp (.lcons 16 0) = false := by decide

theorem witness_MovCopiesRegister :
    (0 : Reg) ≠ Reg.ip ∧ Instr.regsInRange (.mov 0 21) = false ∧ Instr.regsInRange (.mov 16 0) = true ∧
    Instr.namesNoIp (.mov 16 0) = false ∧ Instr.namesNoIp (.mov 0 16) = false := by decide

/-- SP at 3, 4, RAM_SIZE and RAM_SIZE + 1. -/
theorem witness_PushStoresBelowSp :
    (0 : Reg) ≠ Reg.ip ∧ ((start []).setReg Reg.sp 3).sp.toNat < 4 ∧ 4 ≤ ((start []).setReg Reg.sp 4).sp.toNat ∧
    (start []).ram.size < ((start []).setReg Reg.sp 0x101).sp.toNat ∧ (start []).sp.toNat ≤ (start []).ram.size ∧
    (start []).mem.wf ∧ Instr.regsInRange (.push 21) = false ∧ Instr.regsInRange (.push 16) = true ∧
    Instr.namesNoIp (.push 16) = false := by decide

/-- K1 (SP = RAM_SIZE), K5 (SP + 4 = 12 below 13) and K6 (12 is not below 12), and SP + 4 = RAM_SIZE. -/
theorem witness_PopReadsAtSp :
    (0 : Reg) ≠ Reg.ip ∧ (start []).ram.size < ((start []).setReg Reg.sp 0xFD).sp.toNat + 4 ∧
    ((start []).setReg Reg.sp 8).sp.toNat + 4 ≤ (start []).ram.size ∧
    ((start []).setReg Reg.sp 8).sp.toNat + 4 < ({ start [] with programSize := 13 } : State).programSize ∧
    ({ start [] with programSize := 12 } : State).programSize ≤ ((start []).setReg Reg.sp 8).sp.toNat + 4 ∧
    ((start []).setReg Reg.sp 0xFC).sp.toNat + 4 ≤ (start []).ram.size ∧ (0 : Reg) ≠ Reg.sp ∧
    Instr.regsInRange (.pop 21) = false ∧ Instr.regsInRange (.pop 16) = true ∧ Instr.namesNoIp (.pop 16) = false := by decide

theorem witness_PushThenPopRestores :
    (0 : Reg) ≠ Reg.ip ∧ (0 : Reg) ≠ Reg.sp ∧ (start []).mem.wf ∧ 4 ≤ (start []).sp.toNat ∧
    (start []).sp.toNat ≤ (start []).ram.size ∧ (start []).programSize ≤ (start []).sp.toNat := by decide

/-- The last address of ROM and the first one after it. -/
theorem witness_CallLinksAndJumps :
    (start []).rom.contains (0x00FF : Addr).toNat = true ∧ (start []).rom.contains (0x0100 : Addr).toNat = false := by decide

/-- The first and last words of RAM and the addresses just outside. -/
theorem witness_StoreWritesRam :
    (0 : Reg) ≠ Reg.ip ∧ (start []).mem.wf ∧ Instr.regsInRange (.store 0x8000 21) = false ∧
    Instr.regsInRange (.store 0x8000 16) = true ∧ Instr.namesNoIp (.store 0x8000 16) = false ∧
    (∀ p ∈ [(0x8000 : Addr), 0x80FC], (start []).ram.base.toNat ≤ p.toNat ∧
      p.toNat + 4 ≤ (start []).ram.base.toNat + (start []).ram.size) ∧
    ∀ p ∈ [(0x7FFF : Addr), 0x80FD, 0xFFFF], ¬ ((start []).ram.base.toNat ≤ p.toNat ∧
      p.toNat + 4 ≤ (start []).ram.base.toNat + (start []).ram.size) := by
  refine ⟨by decide, by decide, by decide, by decide, by decide, ?_, ?_⟩ <;> simp [start, State.placed, State.reset, referenceRam]

theorem witness_LoadReadsRam :
    (0 : Reg) ≠ Reg.ip ∧ Instr.regsInRange (.load 21 0x8000) = false ∧
    Instr.regsInRange (.load 16 0x8000) = true ∧ Instr.namesNoIp (.load 16 0x8000) = false ∧
    (∀ p ∈ [(0x8000 : Addr), 0x80FC], (start []).ram.base.toNat ≤ p.toNat ∧
      p.toNat + 4 ≤ (start []).ram.base.toNat + (start []).ram.size) ∧
    ∀ p ∈ [(0x0000 : Addr), 0x80FD], ¬ ((start []).ram.base.toNat ≤ p.toNat ∧
      p.toNat + 4 ≤ (start []).ram.base.toNat + (start []).ram.size) := by
  refine ⟨by decide, by decide, by decide, by decide, ?_, ?_⟩ <;> simp [start, State.placed, State.reset, referenceRam]

theorem witness_StoreThenLoadReturnsWord :
    (0 : Reg) ≠ Reg.ip ∧ (start []).mem.wf ∧ (start []).ram.containsWord (0x80FC : Addr).toNat = true := by decide

theorem witness_AddSubMulModulo :
    (0 : Reg) ≠ Reg.ip ∧ (20 : Reg) ≠ Reg.ip ∧ (∀ i ∈ [Instr.add 21 0, .sub 0 21, .mul 255 255], i.regsInRange = false) ∧
    ∀ i ∈ [Instr.add 16 0, .sub 0 16, .mul 16 16], i.regsInRange = true ∧ i.namesNoIp = false := by decide

theorem witness_DivFloorsOrStops :
    (0 : Reg) ≠ Reg.ip ∧ (start2 [] 9 1).reg 1 ≠ 0 ∧ (start2 [] 9 0).reg 1 = 0 ∧
    Instr.regsInRange (.div 21 0) = false ∧ Instr.regsInRange (.div 16 0) = true ∧ Instr.namesNoIp (.div 16 0) = false := by decide

/-- Amounts 31 and 32. -/
theorem witness_LogicalShifts :
    (0 : Reg) ≠ Reg.ip ∧ ((start2 [] 1 31).reg 1).toNat ≤ 31 ∧ 31 < ((start2 [] 1 32).reg 1).toNat ∧
    (∀ i ∈ [Instr.shl 21 0, .shr 0 21], i.regsInRange = false) ∧
    ∀ i ∈ [Instr.shl 16 0, .shr 0 16], i.regsInRange = true ∧ i.namesNoIp = false := by decide

theorem witness_ArithmeticShiftReplicatesSign :
    (0 : Reg) ≠ Reg.ip ∧ ((start2 [] 1 31).reg 1).toNat ≤ 31 ∧ 31 < ((start2 [] 1 32).reg 1).toNat ∧
    Instr.regsInRange (.ishr 21 0) = false ∧ Instr.regsInRange (.ishr 16 0) = true ∧ Instr.namesNoIp (.ishr 16 0) = false := by
  decide

theorem witness_BitwiseLogic :
    (0 : Reg) ≠ Reg.ip ∧ (∀ i ∈ [Instr.and 21 0, .or 0 21, .xor 21 21], i.regsInRange = false) ∧
    ∀ i ∈ [Instr.and 16 0, .or 0 16, .xor 16 16], i.regsInRange = true ∧ i.namesNoIp = false := by decide

theorem witness_NotComplements :
    (0 : Reg) ≠ Reg.ip ∧ Instr.regsInRange (.not 21) = false ∧ Instr.regsInRange (.not 16) = true ∧
    Instr.namesNoIp (.not 16) = false := by decide

theorem witness_JmpChecksTarget :
    (start []).rom.contains (0x00FF : Addr).toNat = true ∧ (start []).rom.contains (0x0100 : Addr).toNat = false := by decide

theorem witness_JrTakesLowBits :
    (0 : Reg) ≠ Reg.ip ∧ Instr.regsInRange (.jr 21) = false ∧ Instr.regsInRange (.jr 16) = true ∧
    Instr.namesNoIp (.jr 16) = false := by decide

/-- R0, the register with id 0, and R1. -/
theorem witness_SkipTestsRegisterId :
    (0 : Reg) ≠ Reg.ip ∧ (1 : Reg) ≠ Reg.ip ∧ (0 : Reg).val = 0 ∧ (1 : Reg).val ≠ 0 ∧
    (∀ i ∈ [Instr.skipz 21, .skipnz 21], i.regsInRange = false) ∧
    ∀ i ∈ [Instr.skipz 16, .skipnz 16], i.regsInRange = true ∧ i.namesNoIp = false := by decide

/-- A host about to call `initialize`, its ROM reaching the last byte of the address space. -/
def binding : State := { State.reset with host := [.bind ⟨0xFFFE, 2⟩ ⟨0, 4⟩ [0x00, 0x01] 0] }

theorem witness_InitializeSetsResetValues :
    binding.phase ≠ .running ∧ binding.host = .bind ⟨0xFFFE, 2⟩ ⟨0, 4⟩ [0x00, 0x01] 0 :: [] ∧
    regionsValid ⟨0xFFFE, 2⟩ ⟨0, 4⟩ = true ∧ ([0x00, 0x01] : List Byte).length = (⟨0xFFFE, 2⟩ : Region).size ∧
    Reg.ip ≠ Reg.sp ∧ (⟨0, 4⟩ : Region).contains 3 = true := by decide

/-- A region one byte past 0xFFFF, and regions that share a byte. -/
theorem witness_BadRegionsRefused :
    ({ State.reset with host := [.bind ⟨0xFFFF, 2⟩ ⟨0, 4⟩ [0, 0] 0] } : State).host = .bind ⟨0xFFFF, 2⟩ ⟨0, 4⟩ [0, 0] 0 :: [] ∧
    State.reset.phase ≠ .running ∧ 65536 < (⟨0xFFFF, 2⟩ : Region).base.toNat + (⟨0xFFFF, 2⟩ : Region).size ∧
    (⟨0, 4⟩ : Region).contains 3 = true ∧ (⟨3, 4⟩ : Region).contains 3 = true := by decide

/-- `run` after reset and after a pause; after FINISHED and after an error. -/
theorem witness_RunStartsOrIsRefused :
    ({ State.reset with host := [.run 3 1] } : State).host = .run 3 1 :: [] ∧ State.reset.phase = .ready ∧
    regionsValid State.reset.rom State.reset.ram = true ∧
    ({ State.reset with phase := .stopped .paused, host := [.run 3 1] } : State).phase = .stopped .paused ∧
    ({ State.reset with phase := .stopped .finished, host := [.run 3 1] } : State).phase = .stopped .finished ∧
    ({ State.reset with phase := .stopped (.error .unknownOpcode), host := [.run 3 1] } : State).phase =
      .stopped (.error .unknownOpcode) := by decide

theorem witness_HostRegisterAccess :
    21 ≤ 21 ∧ ({ State.reset with phase := .stopped .finished } : State).phase ≠ .running ∧
    regionsValid State.reset.rom State.reset.ram = true ∧ Reg.ov ≠ Reg.ip := by decide

/-- Each host call at the head of the queue of a state outside a run: answered, and refused where the call can be. -/
theorem witness_StepCalls :
    State.reset.phase ≠ .running ∧
    (∀ a ∈ [HostAction.getRegister 20, .setRegister 16 9, .rawPush 7, .memory 0x80FF],
      ({ State.reset with host := [a] } : State).host = a :: [] ∧ stepsTo { State.reset with host := [a] } (fun _ => true) = true) ∧
    stepsTo { State.reset.setReg Reg.sp 0xFC with host := [.rawPop] } (fun t => t.sp = 0x100) = true ∧
    refusesWith { State.reset with host := [.getRegister 21] } .registerIdOutOfRange = true ∧
    refusesWith { State.reset with host := [.setRegister 21 0] } .registerIdOutOfRange = true ∧
    refusesWith { State.reset.setReg Reg.sp 3 with host := [.rawPush 7] } .rawStackOutsideRam = true ∧
    refusesWith { State.reset with host := [.rawPop] } .rawStackOutsideRam = true ∧
    refusesWith { State.reset with host := [.memory 0x8100] } .addressUnmapped = true := by decide

/-- SP at 4 and RAM_SIZE, at 3 and RAM_SIZE + 1; for `raw_pop` SP at RAM_SIZE - 4 and RAM_SIZE - 3. -/
theorem witness_RawStackHelpers :
    State.reset.mem.wf ∧
    (∀ v ∈ [(4 : Word), 0x100], 4 ≤ (State.reset.setReg Reg.sp v).sp.toNat ∧ (State.reset.setReg Reg.sp v).sp.toNat ≤ State.reset.ram.size) ∧
    (∀ v ∈ [(3 : Word), 0x101],
      ¬ (4 ≤ (State.reset.setReg Reg.sp v).sp.toNat ∧ (State.reset.setReg Reg.sp v).sp.toNat ≤ State.reset.ram.size)) ∧
    (State.reset.setReg Reg.sp 0xFC).sp.toNat + 4 ≤ State.reset.ram.size ∧
    State.reset.ram.size < (State.reset.setReg Reg.sp 0xFD).sp.toNat + 4 := by
  refine ⟨by decide, ?_⟩
  simp [State.sp, State.reset, referenceRam]

theorem witness_MemoryTranslatesAddress :
    State.reset.rom.contains (0x00FF : Addr).toNat = true ∧
    (State.reset.rom.contains (0x8000 : Addr).toNat = false ∧ State.reset.ram.contains (0x8000 : Addr).toNat = true) ∧
    (State.reset.rom.contains (0x8100 : Addr).toNat = false ∧ State.reset.ram.contains (0x8100 : Addr).toNat = false) := by decide

theorem witness_HostWriteVisible :
    State.reset.phase ≠ .running ∧ State.reset.mem.wf ∧
    (∀ p ∈ [(0x00FF : Addr), 0x80FF, 0x0100],
      ({ State.reset with host := [.writeByte p 1] } : State).host = .writeByte p 1 :: []) ∧
    State.reset.rom.contains (0x00FF : Addr).toNat = true ∧ State.reset.ram.contains (0x80FF : Addr).toNat = true ∧
    (State.reset.rom.contains (0x0100 : Addr).toNat = false ∧ State.reset.ram.contains (0x0100 : Addr).toNat = false) :=
  ⟨by decide, by decide, fun _ _ => rfl, by decide, by decide, by decide⟩

theorem witness_RegistrationReplacesCallback :
    State.reset.phase ≠ .running ∧ ({ State.reset with host := [.register (some 1)] } : State).host = .register (some 1) :: [] := by
  decide

end Sys2Proof.Tests
end

section
/-! PROOFS. Decoding goes by the opcode byte alone (30_encoding R51 to R56): what the operand reader of each format can answer,
collected over the kinds, and the table lookup in front of it. -/

namespace Sys2Proof

/-- All that reading the operands of a kind from the bytes `bs` can answer: the bytes are too few for its `L`, or they begin
with the operand bytes of an instruction of that kind and the bytes after those are handed back (R56). -/
inductive OperandsRead (o : Op) (bs : List Byte) : Decoded → Prop
  | truncated (hshort : bs.length < o.argLen) : OperandsRead o bs (.error (.truncated o.argLen))
  | read (i : Instr) (rest : List Byte) (hop : i.op = o) (hbytes : bs = i.operandBytes ++ rest) :
      OperandsRead o bs (.ok (i, rest))

/-- The short answer of a format whose `L` is the number `L`. -/
theorem OperandsRead.short {o : Op} {bs : List Byte} {L : Nat} (hL : o.argLen = L) (hshort : bs.length < L) :
    OperandsRead o bs (.error (.truncated L)) := by
  subst hL
  exact .truncated hshort

theorem length_operandBytes (i : Instr) : i.operandBytes.length = i.argLen := by
  have h := length_encode i
  simp only [encode, List.length_cons] at h
  omega

/-- Too few operand bytes are answered `truncated`: an instruction's operand bytes would be `L` of them. -/
theorem OperandsRead.eq_truncated {o : Op} {bs : List Byte} {d : Decoded} (hread : OperandsRead o bs d)
    (hshort : bs.length < o.argLen) : d = .error (.truncated o.argLen) := by
  cases hread with
  | truncated => rfl
  | read i rest hop hbytes =>
    subst hop hbytes
    rw [List.length_append, length_operandBytes, Instr.argLen] at hshort
    omega

/-- Enough operand bytes are the operand bytes of an instruction of the kind, followed by what is handed back. -/
theorem OperandsRead.exists_eq_ok {o : Op} {bs : List Byte} {d : Decoded} (hread : OperandsRead o bs d)
    (henough : o.argLen ≤ bs.length) :
    ∃ i, d = .ok (i, bs.drop o.argLen) ∧ i.op = o ∧ i.operandBytes = bs.take o.argLen := by
  cases hread with
  | truncated hshort => exact absurd hshort (Nat.not_lt.mpr henough)
  | read i rest hop hbytes =>
    have hlen : i.operandBytes.length = o.argLen := by rw [length_operandBytes, Instr.argLen, hop]
    exact ⟨i, by rw [hbytes, ← hlen, List.drop_left], hop, by rw [hbytes, ← hlen, List.take_left]⟩

section Formats

variable {o : Op}

theorem takeByte_read {mk : Byte → Instr} (hL : o.argLen = 1)
    (hmk : ∀ r, (mk r).op = o ∧ (mk r).operandBytes = [r]) : ∀ bs, OperandsRead o bs (takeByte mk bs)
  | [] => .short hL (by decide)
  | r :: t => .read (mk r) t (hmk r).1 (by simp [hmk])

theorem takeRR_read {mk : RegField → RegField → Instr} (hL : o.argLen = 2)
    (hmk : ∀ d s, (mk d s).op = o ∧ (mk d s).operandBytes = [d, s]) : ∀ bs, OperandsRead o bs (takeRR mk bs)
  | [] | [_] => .short hL (by simp)
  | d :: s :: t => .read (mk d s) t (hmk d s).1 (by simp [hmk])

theorem takeA_read {mk : Addr → Instr} (hL : o.argLen = 2)
    (hmk : ∀ p, (mk p).op = o ∧ (mk p).operandBytes = addrBytes p) : ∀ bs, OperandsRead o bs (takeA mk bs)
  | [] | [_] => .short hL (by simp)
  | lo :: hi :: t => .read (mk (addrOfBytes lo hi)) t (hmk _).1 (by simp [hmk, addrBytes_addrOfBytes])

theorem takeAR_read {mk : Addr → RegField → Instr} (hL : o.argLen = 3)
    (hmk : ∀ p r, (mk p r).op = o ∧ (mk p r).operandBytes = addrBytes p ++ [r]) : ∀ bs, OperandsRead o bs (takeAR mk bs)
  | [] | [_] | [_, _] => .short hL (by simp)
  | lo :: hi :: r :: t => .read (mk (addrOfBytes lo hi) r) t (hmk _ r).1 (by simp [hmk, addrBytes_addrOfBytes])

theorem takeRA_read {mk : RegField → Addr → Instr} (hL : o.argLen = 3)
    (hmk : ∀ r p, (mk r p).op = o ∧ (mk r p).operandBytes = r :: addrBytes p) : ∀ bs, OperandsRead o bs (takeRA mk bs)
  | [] | [_] | [_, _] => .short hL (by simp)
  | r :: lo :: hi :: t => .read (mk r (addrOfBytes lo hi)) t (hmk r _).1 (by simp [hmk, addrBytes_addrOfBytes])

theorem takeRI_read {mk : RegField → Word → Instr} (hL : o.argLen = 5)
    (hmk : ∀ r v, (mk r v).op = o ∧ (mk r v).operandBytes = r :: immBytes v) : ∀ bs, OperandsRead o bs (takeRI mk bs)
  | [] | [_] | [_, _] | [_, _, _] | [_, _, _, _] => .short hL (by simp)
  | r :: b0 :: b1 :: b2 :: b3 :: t =>
      .read (mk r (immOfBytes b0 b1 b2 b3)) t (hmk r _).1 (by simp [hmk, immBytes_immOfBytes])

end Formats

/-- Every kind reads its operands as its format says: the cases are the formats of R51. -/
theorem decodeOperands_read (o : Op) (bs : List Byte) : OperandsRead o bs (decodeOperands o bs) := by
  cases o
  case nop | halt | ret => exact .read _ bs rfl rfl
  case syscall | push | pop | not | jr | skipz | skipnz =>
    refine takeByte_read rfl (fun _ => ?_) bs
    exact ⟨rfl, rfl⟩
  case mov | add | sub | mul | div | shl | shr | ishr | and | or | xor =>
    refine takeRR_read rfl (fun _ _ => ?_) bs
    exact ⟨rfl, rfl⟩
  case call | jmp =>
    refine takeA_read rfl (fun _ => ?_) bs
    exact ⟨rfl, rfl⟩
  case store =>
    refine takeAR_read rfl (fun _ _ => ?_) bs
    exact ⟨rfl, rfl⟩
  case load =>
    refine takeRA_read rfl (fun _ _ => ?_) bs
    exact ⟨rfl, rfl⟩
  case lcons =>
    refine takeRI_read rfl (fun _ _ => ?_) bs
    exact ⟨rfl, rfl⟩

/-- An opcode byte past the table is rejected whatever follows it (R55). -/
theorem decode_of_length_le {b : Byte} (bs : List Byte) (h : opcodeTable.length ≤ b.toNat) :
    decode (b :: bs) = .error (.unknownOpcode b) := by
  simp only [decode, opOfByte, List.getElem?_eq_none h]

/-- An opcode byte in the table leaves the rest to its kind's operand reader (R52). -/
theorem decode_of_lt_length {b : Byte} (bs : List Byte) (h : b.toNat < opcodeTable.length) :
    decode (b :: bs) = decodeOperands opcodeTable[b.toNat] bs := by
  simp only [decode, opOfByte, List.getElem?_eq_getElem h]

/-- Settles O1: the table lookup decides between unknown and a kind, and the kind's operand reader between truncated and an
instruction, whose opcode byte is the byte looked up. -/
theorem decodeByOpcodeByteAlone : Obligations.DecodeByOpcodeByteAlone := by
  refine ⟨rfl, fun b bs => ⟨decode_of_length_le bs, fun h => ?_⟩⟩
  rw [decode_of_lt_length bs h]
  refine ⟨(decodeOperands_read _ bs).eq_truncated, fun henough => ?_⟩
  obtain ⟨i, hdecode, hop, hbytes⟩ := (decodeOperands_read _ bs).exists_eq_ok henough
  refine ⟨i, hdecode, ?_, ?_⟩
  · rw [encode, hop, hbytes, opcodeByte_getElem b h]
  · rw [Instr.length, Instr.argLen, hop]

end Sys2Proof
end

section
/-! PROOFS. A running core at an instruction in ROM (40_sequencer R72 to R77): fetch decodes the instruction that stands at IP, and
a pending skip consumes it whole, whatever its operands are (R75). -/

namespace Sys2Proof

/-- The operand bytes of an instruction are read back as its operands (R51, R53). -/
theorem decodeOperands_operandBytes (i : Instr) (rest : List Byte) :
    decodeOperands i.op (i.operandBytes ++ rest) = .ok (i, rest) := by
  cases i
  case call | jmp => simp [Instr.op, Instr.operandBytes, addrBytes, decodeOperands, takeA, addrOfBytes_extract]
  case store => simp [Instr.op, Instr.operandBytes, addrBytes, decodeOperands, takeAR, addrOfBytes_extract]
  case load => simp [Instr.op, Instr.operandBytes, addrBytes, decodeOperands, takeRA, addrOfBytes_extract]
  case lcons => simp [Instr.op, Instr.operandBytes, immBytes, decodeOperands, takeRI, immOfBytes_extract]
  all_goals rfl

theorem decode_encode (i : Instr) (rest : List Byte) : decode (encode i ++ rest) = .ok (i, rest) := by
  simp only [encode, List.cons_append, decode, opOfByte_opcodeByte, decodeOperands_operandBytes]

end Sys2Proof

namespace Sys2Proof.Machine

/-- With an instruction standing in ROM at IP, a step of a running core is steps 4 to 6 for it: fetch cannot fail (R73 to R77). -/
theorem step_of_holdsAt {s : State} {i : Instr} (hrun : s.phase = .running) (hat : s.holdsAt s.ip.toNat i) :
    step s = executeOrSkip i s := by
  obtain ⟨rest, hfetch⟩ := State.fetchBytes_of_holdsAt hat
  simp only [step, machineStep, hrun, coreStep, hfetch, decode_encode]

theorem executeOrSkip_of_skip {s : State} (i : Instr) (hskip : s.skip = true) :
    executeOrSkip i s = .next (s.skipOver i.argLen) := by
  rw [executeOrSkip, if_pos hskip]

/-- A running state, counted, is running or PAUSED as its budget says (R77). -/
theorem State.phase_counted {s : State} (hrun : s.phase = .running) : s.counted.phase = s.phaseAfterCount := by
  simp only [State.counted, State.phaseAfterCount, hrun]

/-- Skipping keeps the phase and the budget, so it pauses where executing would. -/
theorem State.phase_skipOver {s : State} (hrun : s.phase = .running) (L : Nat) :
    (s.skipOver L).phase = s.phaseAfterCount := State.phase_counted hrun

theorem State.ip_skipOver (s : State) (L : Nat) : (s.skipOver L).ip = addrPlus s.ip (1 + L) := by
  rw [State.skipOver, State.ip_counted, State.ip_advance, State.ip_setSkip]

theorem State.reg_skipOver_ne (s : State) (L : Nat) {k : Reg} (h : k ≠ Reg.ip) : (s.skipOver L).reg k = s.reg k := by
  rw [State.skipOver, State.reg_counted, State.reg_advance_ne _ L h, State.reg_setSkip]

/-- Settles O5: fetch finds the instruction, and the step is `skipOver` of its length, which writes the flag, IP, the counter and
the phase alone. -/
theorem skipConsumesOneInstruction : Obligations.SkipConsumesOneInstruction := by
  intro i s hrun hskip hat
  refine ⟨s.skipOver i.argLen, ?_, rfl, s.ip_skipOver _, rfl, State.phase_skipOver hrun _, ?_, fun _ => rfl, ?_, rfl, rfl⟩
  · rw [step_of_holdsAt hrun hat, executeOrSkip_of_skip i hskip]
  · exact fun k hk => s.reg_skipOver_ne _ (by simpa using hk)
  · constructor <;> rfl

end Sys2Proof.Machine
end

section
/-! PROOFS. Jumps to an address checked in ROM (44_call_return R105, 49_jump_skip R134): the frame of a jump, and CALL and JMP. -/

namespace Sys2Proof.Machine

/-- A jump writes IP alone. -/
theorem JumpsTo.of_jump (s : State) (target : Word) : JumpsTo target [] s (s.jump target) where
  ip := s.ip_jump target
  regs := fun _ hk => s.reg_jump_ne target (by simpa using hk)
  skip := rfl
  mem := fun _ => rfl
  config := by constructor <;> rfl
  run := by constructor <;> rfl

/-- A register written, then a jump: no other register and nothing else changes. -/
theorem JumpsTo.of_setReg_jump (s : State) (r : Reg) (v target : Word) :
    JumpsTo target [r] s ((s.setReg r v).jump target) where
  ip := State.ip_jump _ target
  regs := fun k hk => by
    simp only [List.mem_cons, List.not_mem_nil, or_false, not_or] at hk
    rw [State.reg_jump_ne _ target hk.1, State.reg_setReg_ne s v hk.2]
  skip := rfl
  mem := fun _ => rfl
  config := by constructor <;> rfl
  run := by constructor <;> rfl

section
variable {s : State} {p : Addr}

/-- CALL links and jumps when its target is in ROM. -/
theorem exec_call_of_contains (h : s.rom.contains p.toNat = true) :
    exec (.call p) s = .next ((s.setReg Reg.ra (addrPlus s.ip 3)).jump (p.setWidth 32)) := if_pos h

theorem exec_call_of_not_contains (h : s.rom.contains p.toNat = false) :
    exec (.call p) s = .next (s.raise .invalidAddress 2) := if_neg (ne_true_of_eq_false h)

theorem exec_jmp_of_contains (h : s.rom.contains p.toNat = true) :
    exec (.jmp p) s = .next (s.jump (p.setWidth 32)) := if_pos h

theorem exec_jmp_of_not_contains (h : s.rom.contains p.toNat = false) :
    exec (.jmp p) s = .next (s.raise .invalidAddress 2) := if_neg (ne_true_of_eq_false h)

end

/-- Settles O28: in ROM the CALL is a write of RA and a jump; outside it raises before either. -/
theorem callLinksAndJumps : Obligations.CallLinksAndJumps := by
  refine ⟨fun _ => rfl, fun p s => ⟨fun hin => ?_, fun hout => .of_eq (exec_call_of_not_contains hout)⟩⟩
  refine ⟨_, exec_call_of_contains hin, ?_, ?_⟩
  · rw [State.reg_jump_ne _ _ Reg.ra_ne_ip, State.reg_setReg_self]
  · rw [BitVec.ofNat_toNat]
    exact .of_setReg_jump s Reg.ra _ _

/-- Settles O39: in ROM the JMP is a jump and nothing else; outside it raises. -/
theorem jmpChecksTarget : Obligations.JmpChecksTarget := by
  refine ⟨fun _ => rfl, fun p s => ⟨fun hin => ?_, fun hout => .of_eq (exec_jmp_of_not_contains hout)⟩⟩
  refine ⟨_, exec_jmp_of_contains hin, ?_⟩
  rw [BitVec.ofNat_toNat]
  exact .of_jump s _

end Sys2Proof.Machine
end

section
/-! PROOFS. SYSCALL (41_system R92, R93): its three ends, and what stays from the SYSCALL to the return of its callback. -/

namespace Sys2Proof.Machine

section
variable {s u : State} {code : Byte} {cb : Nat} {r : Refusal}

theorem exec_syscall_of_none (h : s.callback = none) :
    exec (.syscall code) s = .next (s.raise .unhandledInterrupt 1) := by
  simp only [exec, execSyscall, h]

/-- With a callback, SYSCALL goes on as the callback's answer says (R92). -/
theorem exec_syscall_of_some (h : s.callback = some cb) :
    exec (.syscall code) s = afterCallback (s.takeAnswer cb code).1 (s.takeAnswer cb code).2 := by
  simp only [exec, execSyscall, h]

theorem afterCallback_of_ok {answer : HostAnswer} (h : callbackCalls answer.acts s = .ok u) :
    afterCallback answer s = .next (if answer.keepGoing then u.advance 1 else u.finish 1) := by
  simp only [afterCallback, h]
  split <;> rfl

theorem afterCallback_of_error {answer : HostAnswer} (h : callbackCalls answer.acts s = .error r) :
    afterCallback answer s = .refused r := by
  simp only [afterCallback, h]

/-- A waiting answer is the callback's, and is used up (log 7). -/
theorem State.takeAnswer_of_cons {answer : HostAnswer} {rest : List HostAnswer} (h : s.hostAnswers = answer :: rest) :
    (s.takeAnswer cb code).1 = answer ∧ (s.takeAnswer cb code).2.hostAnswers = rest := by
  simp only [State.takeAnswer, h, and_self]

/-- What stays from a SYSCALL to the return of its callback: all but registers other than IP, memory, and the model's answers
and draws. -/
structure SyscallKeeps (s u : State) : Prop where
  ip : u.ip = s.ip
  skip : u.skip = s.skip
  phase : u.phase = s.phase
  count : u.count = s.count
  config : SameConfig s u

theorem SyscallKeeps.of_callbackCalls {acts : List HostAction} (h : callbackCalls acts (s.takeAnswer cb code).2 = .ok u) :
    SyscallKeeps s u :=
  have taken := s.takeAnswer_taken cb code
  have kept := callbackCalls_keeps h
  { ip := kept.ip.trans (s.ip_takeAnswer cb code)
    skip := kept.skip.trans taken.skip
    phase := kept.run.phase.trans taken.phase
    count := kept.run.count.trans taken.count
    config := taken.config.trans kept.config }

end

/-- Falling through writes IP alone. -/
theorem OnlyRegs.of_advance (s : State) (L : Nat) : OnlyRegs [] (1 + L) s (s.advance L) where
  ip := s.ip_advance L
  regs := fun _ hk => s.reg_advance_ne L (by simpa using hk)
  skip := rfl
  mem := fun _ => rfl
  config := by constructor <;> rfl
  run := by constructor <;> rfl

/-- Settles O21: what the callback leaves keeps IP, the flag, the run and the configuration of the SYSCALL, and after it SYSCALL only
falls through or ends the run. -/
theorem syscallCallsHost : Obligations.SyscallCallsHost := by
  intro code s
  refine ⟨rfl, fun hnone => .of_eq (exec_syscall_of_none hnone), fun cb => ?_, fun cb u hcb hcalls => ?_,
    fun cb r hcb hcalls => ?_⟩
  · have taken := s.takeAnswer_taken cb code
    exact ⟨taken.regs, taken.mem, fun _ _ hwaiting => State.takeAnswer_of_cons hwaiting⟩
  · have kept := SyscallKeeps.of_callbackCalls hcalls
    have hexec := (exec_syscall_of_some hcb).trans (afterCallback_of_ok hcalls)
    refine ⟨fun htrue => ?_, fun hfalse => ?_⟩
    · have frame := OnlyRegs.of_advance u 1
      rw [htrue, if_pos rfl] at hexec
      exact ⟨_, hexec, frame.ip.trans (by rw [kept.ip]), frame.regs, frame.mem, frame.skip.trans kept.skip,
        frame.run.phase.trans kept.phase, frame.run.count.trans kept.count, kept.config.trans frame.config⟩
    · have ends := RunEnds.of_endRun u .finished 1
      rw [hfalse, if_neg Bool.false_ne_true] at hexec
      exact ⟨_, hexec, ends, ends.skip.trans kept.skip, ends.count.trans kept.count, kept.config.trans ends.config⟩
  · rw [exec_syscall_of_some hcb, afterCallback_of_error hcalls]

end Sys2Proof.Machine
end

section
/-! PROOFS. HALT (41_system R91): an instruction that ends the run is neither counted nor paused, and no `run` follows it. -/

namespace Sys2Proof.Machine

/-- With no operand bytes the range a run may stop at is the one value `a` (R78). -/
theorem stopIp_zero (a : Word) (draw : Nat) : stopIp a 0 draw = a := if_pos rfl

section
variable {s t : State} {i : Instr}

/-- An instruction that ends the run while executing ends its step before step 6 (R77). -/
theorem executeOrSkip_of_ended (hskip : s.skip = false) (hexec : exec i s = .next t) (hended : t.phase ≠ .running) :
    executeOrSkip i s = .next t := by
  simp only [executeOrSkip, hskip, Bool.false_eq_true, if_false, hexec, afterExec, if_neg hended]

/-- A counted instruction does not finish the run: it goes on or pauses (R77). -/
theorem State.phaseAfterCount_ne_finished (s : State) : s.phaseAfterCount ≠ .stopped .finished := by
  unfold State.phaseAfterCount
  split <;> simp

/-- Where the phase admits no `run`, it is refused (R80). -/
theorem hostRun_of_not_runnable (hregions : regionsValid s.rom s.ram = true) (hphase : s.phase.runnable = false)
    (size budget : Nat) : hostRun size budget s = .error .runAfterStop := by
  simp only [hostRun, hregions, if_true, hphase, Bool.false_eq_true, if_false]

end

/-- Settles O20: executed, HALT is `finish` with no operand bytes to stop among, and its step ends there; skipped, it is counted as
any instruction is. -/
theorem haltEndsRun : Obligations.HaltEndsRun := by
  refine ⟨rfl, fun s => ?_, fun s hrun hat => ⟨fun hskip => ?_, fun hskip => ?_⟩⟩
  · exact ⟨s.finish 0, rfl, .of_endRun s .finished 0, (s.ip_endRun .finished 0).trans (stopIp_zero _ _)⟩
  · have hended : (s.finish 0).phase ≠ .running := nofun
    refine ⟨s.finish 0, ?_, .of_endRun s .finished 0, fun hregions => hostRun_of_not_runnable hregions rfl⟩
    rw [step_of_holdsAt hrun hat, executeOrSkip_of_ended hskip rfl hended]
  · refine ⟨s.skipOver Instr.halt.argLen, ?_, ?_⟩
    · rw [step_of_holdsAt hrun hat, executeOrSkip_of_skip .halt hskip]
    · rw [State.phase_skipOver hrun]
      exact s.phaseAfterCount_ne_finished

end Sys2Proof.Machine
end

section
/-! PROOFS. LCONS and MOV (42_move R95, R96): a register other than IP is written and the instruction falls through. -/

namespace Sys2Proof.Machine

/-- An instruction that ends in `writeBack` leaves `v` in its destination and nothing else but IP changed. -/
theorem Completes.of_writeBack {i : Instr} {s : State} {d : Reg} {v : Word} {L : Nat} (hd : d ≠ Reg.ip)
    (h : exec i s = .next (s.writeBack d v L)) :
    Completes i s fun t => t.reg d = v ∧ OnlyRegs [d] (1 + L) s t :=
  ⟨_, h, State.reg_writeBack_self s v L hd, .of_writeBack s v L hd⟩

theorem checksRegisters_lcons (b : RegField) (v : Word) : ChecksRegisters (.lcons b v) :=
  checksRegisters_of_withReg (fun s r => .next (s.writeBack r v 5)) rfl fun _ => rfl

theorem checksRegisters_mov (b c : RegField) : ChecksRegisters (.mov b c) :=
  checksRegisters_of_withRegs (fun s d r => .next (s.writeBack d (s.reg r) 2)) rfl fun _ => rfl

/-- Settles O23: on a valid register LCONS is a `writeBack` of its constant. -/
theorem lconsLoadsConstant : Obligations.LconsLoadsConstant := by
  refine ⟨fun r v => ⟨rfl, checksRegisters_lcons r v⟩, fun r v s hr => ?_⟩
  exact .of_writeBack hr (exec_lcons v hr)

/-- Settles O24: on valid registers MOV is a `writeBack` of its source, read before the write, so `d = s` needs no case of its
own. -/
theorem movCopiesRegister : Obligations.MovCopiesRegister := by
  refine ⟨fun d r => ⟨rfl, checksRegisters_mov d r⟩, fun d r s hd hr => ?_⟩
  exact .of_writeBack hd (exec_mov hd hr)

end Sys2Proof.Machine
end

section
/-! PROOFS. ADD, SUB and MUL (46_arithmetic R115 to R117): the exact integer result modulo 2^32 in the destination, and nothing
recorded about it (D14). -/

namespace Sys2Proof.Machine

/-! The register checks. -/

/-- A `reg1 <- reg1 o reg2` instruction makes the register checks of its two operands. -/
theorem checksRegisters_of_binary {i : Instr} {b c : RegField} (op : Word → Word → Word) (hr : i.regFields = [b, c])
    (hlen : i.argLen = 2) (he : ∀ s, exec i s = binary op b c s) : ChecksRegisters i :=
  checksRegisters_of_withRegs (fun s d r => .next (s.writeBack d (op (s.reg d) (s.reg r)) 2)) hr fun s => by
    rw [he, hlen, binary]

theorem checksRegisters_add (b c : RegField) : ChecksRegisters (.add b c) :=
  checksRegisters_of_binary addWord rfl rfl fun _ => rfl

theorem checksRegisters_sub (b c : RegField) : ChecksRegisters (.sub b c) :=
  checksRegisters_of_binary subWord rfl rfl fun _ => rfl

theorem checksRegisters_mul (b c : RegField) : ChecksRegisters (.mul b c) :=
  checksRegisters_of_binary mulWord rfl rfl fun _ => rfl

/-! The words as integers. -/

theorem toNat_addWord (x y : Word) : (addWord x y).toNat = (x.toNat + y.toNat) % 2 ^ 32 := BitVec.toNat_ofNat ..

/-- The modulus of a negative difference is the word that wraps around, never negative (R116). -/
theorem toNat_subWord (x y : Word) : ((subWord x y).toNat : Int) = (x.toNat - y.toNat : Int) % 2 ^ 32 := by
  rw [subWord, BitVec.toNat_ofInt]
  exact Int.toNat_of_nonneg (Int.emod_nonneg _ (by decide))

theorem toNat_mulWord (x y : Word) : (mulWord x y).toNat = (x.toNat * y.toNat) % 2 ^ 32 := BitVec.toNat_ofNat ..

theorem Completes.imp {i : Instr} {s : State} {P Q : State → Prop} (h : Completes i s P) (hPQ : ∀ t, P t → Q t) :
    Completes i s Q :=
  Exists.imp (fun t => And.imp_right (hPQ t)) h

/-- Settles O33: on valid registers each is a `writeBack` of its word, which read as an integer is the result modulo 2^32. -/
theorem addSubMulModulo : Obligations.AddSubMulModulo := by
  refine ⟨fun d r => ⟨rfl, rfl, rfl, checksRegisters_add d r, checksRegisters_sub d r, checksRegisters_mul d r⟩,
    fun d r s hd hr => ⟨?add, ?sub, ?mul⟩⟩
  case add =>
    refine (Completes.of_writeBack hd (exec_add hd hr)).imp fun t ⟨hresult, frame⟩ => ⟨?_, frame⟩
    rw [hresult, toNat_addWord]
  case sub =>
    refine (Completes.of_writeBack hd (exec_sub hd hr)).imp fun t ⟨hresult, frame⟩ => ⟨?_, frame⟩
    rw [hresult, toNat_subWord]
  case mul =>
    refine (Completes.of_writeBack hd (exec_mul hd hr)).imp fun t ⟨hresult, frame⟩ => ⟨?_, frame⟩
    rw [hresult, toNat_mulWord]

end Sys2Proof.Machine
end

section
/-! PROOFS. SHL and SHR (47_shift R122, R123): exact on integers for the amounts 0 to 31, the open `shift_oob` beyond them. -/

namespace Sys2Proof.Machine

/-! The register checks. -/

theorem checksRegisters_shl (b c : RegField) : ChecksRegisters (.shl b c) :=
  checksRegisters_of_binary (shiftWord .shl) rfl rfl fun _ => rfl

theorem checksRegisters_shr (b c : RegField) : ChecksRegisters (.shr b c) :=
  checksRegisters_of_binary (shiftWord .shr) rfl rfl fun _ => rfl

/-! The shifted word: the amount is compared whole, none of its bits dropped. -/

theorem shiftWord_of_le (op : ShiftOp) (x : Word) {n : Word} (h : n.toNat ≤ 31) : shiftWord op x n = shiftExact op x n.toNat :=
  if_pos h

theorem shiftWord_of_gt (op : ShiftOp) (x : Word) {n : Word} (h : 31 < n.toNat) : shiftWord op x n = Config.shiftOob op x n :=
  if_neg (Nat.not_le.mpr h)

theorem toNat_shiftExact_shl (x : Word) (n : Nat) : (shiftExact .shl x n).toNat = x.toNat * 2 ^ n % 2 ^ 32 :=
  BitVec.toNat_ofNat ..

/-- The quotient of a word is below `2 ^ 32`, so narrowing it loses nothing. -/
theorem toNat_shiftExact_shr (x : Word) (n : Nat) : (shiftExact .shr x n).toNat = x.toNat / 2 ^ n := by
  have hlt : x.toNat / 2 ^ n < 2 ^ 32 := Nat.div_lt_of_lt x.isLt
  rw [shiftExact, BitVec.toNat_ofNat, Nat.mod_eq_of_lt hlt]

/-- A shift that writes back its word changes nothing else but IP; the amount decides between the exact word and `shift_oob`. -/
theorem Completes.of_shift {i : Instr} {op : ShiftOp} {d r : Reg} {s : State} (hd : d ≠ Reg.ip)
    (h : exec i s = .next (s.writeBack d (shiftWord op (s.reg d) (s.reg r)) 2)) :
    Completes i s fun t => OnlyRegs [d] 3 s t ∧
      ((s.reg r).toNat ≤ 31 → t.reg d = shiftExact op (s.reg d) (s.reg r).toNat) ∧
      (31 < (s.reg r).toNat → t.reg d = Config.shiftOob op (s.reg d) (s.reg r)) :=
  (Completes.of_writeBack hd h).imp fun _ ⟨hresult, frame⟩ =>
    ⟨frame, fun hle => hresult.trans (shiftWord_of_le op _ hle), fun hgt => hresult.trans (shiftWord_of_gt op _ hgt)⟩

/-- Settles O35: on valid registers each is a `writeBack` of its shifted word, and the exact word read as an integer is the product
modulo 2^32 or the floor of the quotient. -/
theorem logicalShifts : Obligations.LogicalShifts := by
  refine ⟨fun d r => ⟨rfl, rfl, checksRegisters_shl d r, checksRegisters_shr d r⟩, fun d r s hd hr => ⟨?shl, ?shr⟩⟩
  case shl =>
    refine (Completes.of_shift hd (exec_shl hd hr)).imp fun t ⟨frame, hexact, hoob⟩ => ⟨frame, fun hle => ?_, hoob⟩
    rw [hexact hle, toNat_shiftExact_shl]
  case shr =>
    refine (Completes.of_shift hd (exec_shr hd hr)).imp fun t ⟨frame, hexact, hoob⟩ => ⟨frame, fun hle => ?_, hoob⟩
    rw [hexact hle, toNat_shiftExact_shr]

end Sys2Proof.Machine
end

section
/-! PROOFS. AND, OR, XOR and NOT (48_logic R128 to R131): each of the 32 bits of the result comes from the same bit of the operands. -/

namespace Sys2Proof.Machine

/-! The register checks. -/

theorem checksRegisters_and (b c : RegField) : ChecksRegisters (.and b c) :=
  checksRegisters_of_binary (fun x y => x &&& y) rfl rfl fun _ => rfl

theorem checksRegisters_or (b c : RegField) : ChecksRegisters (.or b c) :=
  checksRegisters_of_binary (fun x y => x ||| y) rfl rfl fun _ => rfl

theorem checksRegisters_xor (b c : RegField) : ChecksRegisters (.xor b c) :=
  checksRegisters_of_binary (fun x y => x ^^^ y) rfl rfl fun _ => rfl

theorem checksRegisters_not (b : RegField) : ChecksRegisters (.not b) :=
  checksRegisters_of_withReg (fun s d => .next (s.writeBack d (notWord (s.reg d)) 1)) rfl fun _ => rfl

/-! The words bit by bit. -/

/-- An instruction that writes back `v`, whose bit `j` is `f` of the bits `j` of its operands, changes nothing else but IP. -/
theorem Completes.of_bitwise {i : Instr} {d r : Reg} {s : State} {v : Word} (f : Bool → Bool → Bool) (hd : d ≠ Reg.ip)
    (h : exec i s = .next (s.writeBack d v 2))
    (hbit : ∀ j, v.getLsbD j = f ((s.reg d).getLsbD j) ((s.reg r).getLsbD j)) :
    Completes i s fun t => OnlyRegs [d] 3 s t ∧
      ∀ j, j < 32 → (t.reg d).getLsbD j = f ((s.reg d).getLsbD j) ((s.reg r).getLsbD j) :=
  (Completes.of_writeBack hd h).imp fun _ ⟨hresult, frame⟩ => ⟨frame, fun j _ => by rw [hresult, hbit]⟩

theorem toNat_notWord (x : Word) : (notWord x).toNat = 0xFFFFFFFF - x.toNat := BitVec.toNat_not

theorem getLsbD_notWord (x : Word) {j : Nat} (hj : j < 32) : (notWord x).getLsbD j = !x.getLsbD j := by
  rw [notWord, BitVec.getLsbD_not, decide_eq_true hj, Bool.true_and]

/-- Settles O37: on valid registers each is a `writeBack` of a word whose bits are the operation's on the operands' bits. -/
theorem bitwiseLogic : Obligations.BitwiseLogic := by
  refine ⟨fun d r => ⟨rfl, rfl, rfl, checksRegisters_and d r, checksRegisters_or d r, checksRegisters_xor d r⟩,
    fun d r s hd hr => ⟨?and, ?or, ?xor⟩⟩
  case and => exact .of_bitwise Bool.and hd (exec_and hd hr) fun _ => BitVec.getLsbD_and
  case or => exact .of_bitwise Bool.or hd (exec_or hd hr) fun _ => BitVec.getLsbD_or
  case xor => exact .of_bitwise Bool.xor hd (exec_xor hd hr) fun _ => BitVec.getLsbD_xor

/-- Settles O38: on a valid register NOT is a `writeBack` of `notWord`, read once as an integer and once bit by bit. -/
theorem notComplements : Obligations.NotComplements := by
  refine ⟨fun d => ⟨rfl, checksRegisters_not d⟩, fun d s hd => ?_⟩
  refine (Completes.of_writeBack hd (exec_not hd)).imp fun t ⟨hresult, frame⟩ => ⟨frame, ?_, fun j hj => ?_⟩
  · rw [hresult, toNat_notWord]
  · rw [hresult, getLsbD_notWord _ hj]

end Sys2Proof.Machine
end

section
/-! PROOFS. SKIPZ and SKIPNZ (49_jump_skip R136, R137): the flag is decided by the register's id, whatever the register holds. -/

namespace Sys2Proof.Machine

theorem checksRegisters_skipz (b : RegField) : ChecksRegisters (.skipz b) :=
  checksRegisters_of_withReg (fun s r => .next ((s.setSkip (idIsZero r)).advance 1)) rfl fun _ => rfl

theorem checksRegisters_skipnz (b : RegField) : ChecksRegisters (.skipnz b) :=
  checksRegisters_of_withReg (fun s r => .next ((s.setSkip (!idIsZero r)).advance 1)) rfl fun _ => rfl

theorem idIsZero_eq_true_iff {r : Reg} : idIsZero r = true ↔ r.val = 0 := decide_eq_true_iff

theorem not_idIsZero_eq_true_iff {r : Reg} : (!idIsZero r) = true ↔ r.val ≠ 0 := by
  rw [Bool.not_eq_true', ← Bool.not_eq_true, idIsZero_eq_true_iff]

/-- An instruction that sets the flag exactly when `P` and falls through by one operand byte writes nothing but the flag and IP. -/
theorem Completes.of_setSkip {i : Instr} {s : State} {on : Bool} {P : Prop} (hon : on = true ↔ P)
    (h : exec i s = .next ((s.setSkip on).advance 1)) :
    Completes i s fun t => (t.skip = true ↔ P) ∧ t.ip = addrPlus s.ip 2 ∧
      RegsKept [Reg.ip] s t ∧ MemKept s t ∧ SameConfig s t ∧ SameRun s t := by
  have frame := OnlyRegs.of_advance (s.setSkip on) 1
  refine ⟨_, h, hon, frame.ip, frame.regs, frame.mem, ?_, ?_⟩ <;> constructor <;> rfl

/-- Settles O41: on a valid register each sets the flag to its test of the id and falls through. -/
theorem skipTestsRegisterId : Obligations.SkipTestsRegisterId := by
  refine ⟨fun r => ⟨rfl, rfl, checksRegisters_skipz r, checksRegisters_skipnz r⟩, fun r s hr => ⟨?skipz, ?skipnz⟩⟩
  case skipz => exact .of_setSkip idIsZero_eq_true_iff (exec_skipz hr)
  case skipnz => exact .of_setSkip not_idIsZero_eq_true_iff (exec_skipnz hr)

end Sys2Proof.Machine
end

section
/-! PROOFS. Decoding undoes encoding (30_encoding R50 to R56), for every instruction and for words written out from the rules. -/

namespace Sys2Proof

/-- Settles O2: the opcode byte selects the kind, whose operand reader undoes the operand bytes. -/
theorem decodeInvertsEncode : Obligations.DecodeInvertsEncode := decode_encode

/-- Settles O3: each word is the encoding of its instruction. -/
theorem sampleWordsDecode : Obligations.SampleWordsDecode :=
  ⟨decode_encode (.lcons 0 0x11223344) [], decode_encode (.store 0x8010 2) [], decode_encode (.load 6 0x8010) [],
    decode_encode (.div 0 1) [], decode_encode (.jmp 0x001E) [], decode_encode (.skipnz 20) []⟩

end Sys2Proof
end

section
/-! PROOFS. The steps of an iteration (40_sequencer R72 to R77): the instruction at IP is executed, or a fetch check ends the run. -/

namespace Sys2Proof.Machine

section
variable {s : State}

theorem executeOrSkip_of_not_skip (i : Instr) (hskip : s.skip = false) : executeOrSkip i s = afterExec (exec i s) := by
  rw [executeOrSkip, if_neg (ne_true_of_eq_false hskip)]

/-- Settles O4: fetch finds the instruction, and step 6 follows its `exec`. -/
theorem stepRunsInstructionAtIp : Obligations.StepRunsInstructionAtIp := by
  intro i s hrun hskip hat
  rw [step_of_holdsAt hrun hat, executeOrSkip_of_not_skip i hskip]
  refine ⟨fun f h => ?_, fun r h => ?_, fun t h hended => ?_, fun t h hgoesOn => ?_⟩ <;> rw [h, afterExec]
  · rw [if_neg hended]
  · rw [if_pos hgoesOn, ← State.phase_counted hgoesOn]
    rfl

/-- Outside ROM fetch reads nothing (R73). -/
theorem decode_fetchBytes_of_outside (h : s.rom.contains s.ip.toNat = false) :
    decode s.fetchBytes = .error .noBytes := by
  have hlen : s.fetchBytes.length ≤ 0 := s.length_romBytes_le (1 + maxArgLen) s.ip.toNat 0 h
  rw [List.eq_nil_of_length_eq_zero (Nat.le_zero.mp hlen), decode]

/-- Inside ROM fetch reads the opcode byte first (R74). -/
theorem State.fetchBytes_of_contains (h : s.rom.contains s.ip.toNat = true) :
    s.fetchBytes = s.byte s.ip.toNat :: s.romBytes (s.ip.toNat + 1) maxArgLen := by
  rw [State.fetchBytes, Nat.add_comm, State.romBytes, if_pos h]

/-- Where ROM ends before the last operand byte, decoding is truncated (R74). -/
theorem decode_fetchBytes_of_truncated {o : Op} (h : s.rom.contains s.ip.toNat = true)
    (hop : opcodeTable[(s.byte s.ip.toNat).toNat]? = some o) (hargs : 0 < o.argLen)
    (hend : s.rom.contains (s.ip.toNat + o.argLen) = false) : decode s.fetchBytes = .error (.truncated o.argLen) := by
  have hlen : s.fetchBytes.length ≤ o.argLen := s.length_romBytes_le (1 + maxArgLen) s.ip.toNat o.argLen hend
  rw [s.fetchBytes_of_contains h, List.length_cons] at hlen
  obtain ⟨hlt, rfl⟩ := List.getElem?_eq_some_iff.mp hop
  rw [s.fetchBytes_of_contains h, decode_of_lt_length _ hlt]
  exact (decodeOperands_read _ _).eq_truncated hlen

/-- Settles O6: each check is one way in which decoding the fetched bytes fails, and a failed fetch is a `raise`. -/
theorem fetchChecksEndRun : Obligations.FetchChecksEndRun := by
  refine fun s hrun => ⟨fun hout => ?outside, fun hin h26 => ?unknown, fun o hin hop hargs hend => ?truncated⟩
  case outside =>
    have hdecode := decode_fetchBytes_of_outside (s := s) (decide_eq_false hout)
    exact ⟨_, step_of_fetchFailed hrun hdecode, .of_endRun s _ _⟩
  case unknown =>
    have hdecode := decode_of_length_le (s.romBytes (s.ip.toNat + 1) maxArgLen) h26
    rw [← s.fetchBytes_of_contains hin] at hdecode
    exact ⟨_, step_of_fetchFailed hrun hdecode, .of_endRun s _ _⟩
  case truncated =>
    exact ⟨_, step_of_fetchFailed hrun (decode_fetchBytes_of_truncated hin hop hargs hend), .of_endRun s _ _⟩

end

end Sys2Proof.Machine
end

section
/-! PROOFS. What a step of a running core does to the configuration, the counter and the phase (10_state R18; 40_sequencer R77;
70_reset R182): it is counted, the run going on or pausing, or it ends the run uncounted. -/

namespace Sys2Proof.Machine

section
variable {s t : State}

theorem fetchFailed_eq_raise (d : DecodeError) (s : State) : ∃ e L, fetchFailed d s = s.raise e L := by
  cases d <;> exact ⟨_, _, rfl⟩

/-- No step of a running core writes the configuration state. -/
theorem CoreNext.config (h : CoreNext s t) : SameConfig s t := by
  cases h with
  | fetchFailed d =>
    obtain ⟨e, L, h⟩ := fetchFailed_eq_raise d s
    exact h ▸ (RunEnds.of_endRun s _ L).config
  | skipped i _ => constructor <;> rfl
  | counted _ hexec _ =>
    have kept := (exec_next hexec).config
    exact ⟨kept.rom, kept.ram, kept.stackSizeHint, kept.callback, kept.programSize, kept.maxInstructions, kept.host⟩
  | ended _ hexec _ => exact (exec_next hexec).config

/-- Settles O11: neither the instructions nor the sequencer write configuration state. -/
theorem configurationOnlyByHost : Obligations.ConfigurationOnlyByHost :=
  fun _ _ hrun hstep => (step_running_next hrun hstep).config

/-- What one iteration of the loop does to the counter and the phase (R77). -/
inductive Ticks (s t : State) : Prop
  | counted (hcount : t.count = s.count + 1) (hphase : t.phase = s.phaseAfterCount)
  | ended (r : RunResult) (hr : r ≠ .paused) (hcount : t.count = s.count) (hphase : t.phase = .stopped r)

/-- The phase after counting depends on the budget and the counter alone. -/
theorem State.phaseAfterCount_congr (hmax : t.maxInstructions = s.maxInstructions) (hcount : t.count = s.count) :
    t.phaseAfterCount = s.phaseAfterCount := by
  simp only [State.phaseAfterCount, hmax, hcount]

theorem CoreNext.ticks (hrun : s.phase = .running) (h : CoreNext s t) : Ticks s t := by
  cases h with
  | fetchFailed d =>
    obtain ⟨e, L, h⟩ := fetchFailed_eq_raise d s
    rw [h]
    exact .ended (.error e) nofun rfl rfl
  | skipped i _ => exact .counted rfl (State.phase_skipOver hrun _)
  | counted _ hexec hgoesOn =>
    have hnext := exec_next hexec
    refine .counted (congrArg (· + 1) hnext.count) ?_
    rw [State.phase_counted hgoesOn, State.phaseAfterCount_congr hnext.config.maxInstructions hnext.count]
  | ended _ hexec hended =>
    have hnext := exec_next hexec
    rcases hnext.phase with hsame | ⟨e, rfl⟩ | hfinished
    · exact absurd (hsame.trans hrun) hended
    · exact .ended (.error e) nofun rfl rfl
    · exact .ended .finished nofun hnext.count hfinished

/-- The run goes on exactly while the counted instructions stay below the budget. -/
theorem State.phaseAfterCount_eq_running_iff :
    s.phaseAfterCount = .running ↔ s.maxInstructions = 0 ∨ s.count + 1 < s.maxInstructions := by
  unfold State.phaseAfterCount
  split
  · simp only [reduceCtorEq, false_iff]
    omega
  · simp only [true_iff]
    omega

theorem State.phaseAfterCount_eq_paused_iff :
    s.phaseAfterCount = .stopped .paused ↔ s.maxInstructions ≠ 0 ∧ s.maxInstructions ≤ s.count + 1 := by
  unfold State.phaseAfterCount
  split
  · simpa only [true_iff]
  · simpa only [reduceCtorEq, false_iff]

theorem State.phaseAfterCount_ne_error (s : State) (e : ErrCode) : s.phaseAfterCount ≠ .stopped (.error e) := by
  unfold State.phaseAfterCount
  split <;> nofun

/-- Settles O7: a counted iteration neither finishes the run nor ends it with an error, and an uncounted one stops it otherwise than
by a pause. -/
theorem everyInstructionCostsOne : Obligations.EveryInstructionCostsOne := by
  intro s t hrun hstep
  cases (step_running_next hrun hstep).ticks hrun with
  | counted hcount hphase =>
    refine ⟨fun _ => hcount, ?_⟩
    rintro (hfinished | ⟨e, herror⟩)
    · exact absurd (hphase.symm.trans hfinished) s.phaseAfterCount_ne_finished
    · exact absurd (hphase.symm.trans herror) (s.phaseAfterCount_ne_error e)
  | ended r hr hcount hphase =>
    refine ⟨?_, fun _ => hcount⟩
    rw [hphase]
    rintro (hgoesOn | hpaused)
    · cases hgoesOn
    · cases hpaused
      exact absurd rfl hr

/-- A budgeted run that goes on after a step has counted it and is still below its budget. -/
theorem count_lt_of_step_running (hrun : s.phase = .running) (hbudget : s.count < s.maxInstructions) (hstep : step s = .next t)
    (hgoesOn : t.phase = .running) : t.count = s.count + 1 ∧ s.count + 1 < s.maxInstructions := by
  cases (step_running_next hrun hstep).ticks hrun with
  | counted hcount hphase =>
    rw [hphase, State.phaseAfterCount_eq_running_iff] at hgoesOn
    exact ⟨hcount, by omega⟩
  | ended r _ _ hphase => cases hphase.symm.trans hgoesOn

/-- Every answer of `k` steps from `s` is a state in which no run is in progress. -/
def ReturnsWithin (k : Nat) (s : State) : Prop :=
  ∀ t : State, Host.Core.run core k s = .next t → t.phase ≠ .running

/-- A machine that has not answered a next state has returned; else the rest of the steps start from that state. -/
theorem ReturnsWithin.succ {k : Nat} (h : ∀ u, step s = .next u → ReturnsWithin k u) : ReturnsWithin (k + 1) s := by
  intro t hk
  cases hstep : core.step s with
  | next u => exact h u hstep t (by simpa only [Host.Core.run, hstep] using hk)
  | fault f => simp only [Host.Core.run, hstep, reduceCtorEq] at hk
  | refused r => simp only [Host.Core.run, hstep, reduceCtorEq] at hk

/-- By induction on the budget left: a step that goes on lowers it. -/
theorem exists_returnsWithin : ∀ (left : Nat) (s : State), s.phase = .running → s.count < s.maxInstructions →
    s.maxInstructions - s.count = left → ∃ k, k ≤ left ∧ ReturnsWithin k s
  | 0, _, _, hbudget, hleft => by omega
  | left + 1, s, hrun, hbudget, hleft => by
    by_cases hgoesOn : ∃ u, step s = .next u ∧ u.phase = .running
    · obtain ⟨u, hstep, hu⟩ := hgoesOn
      obtain ⟨hcount, hbelow⟩ := count_lt_of_step_running hrun hbudget hstep hu
      have hmax : u.maxInstructions = s.maxInstructions := (step_running_next hrun hstep).config.maxInstructions
      obtain ⟨k, hk, hreturns⟩ := exists_returnsWithin left u hu (by omega) (by omega)
      refine ⟨k + 1, by omega, .succ fun v hv => ?_⟩
      cases hstep.symm.trans hv
      exact hreturns
    · refine ⟨1, by omega, .succ fun u hstep t ht => ?_⟩
      cases ht
      exact fun hu => hgoesOn ⟨_, hstep, hu⟩

/-- Settles O8: each step that goes on uses up one of the instructions the budget has left. -/
theorem budgetedRunReturns : Obligations.BudgetedRunReturns :=
  fun s hrun hbudget => exists_returnsWithin _ s hrun hbudget rfl

end

end Sys2Proof.Machine
end

section
/-! PROOFS. Which bytes a step can write (20_memory R30, R42, R44): an instruction and the stack only a word inside RAM, the host
also bytes of ROM. -/

namespace Sys2Proof.Machine

/-! Regions. -/

section
variable {g : Region} {p q : Nat}

theorem Region.contains_iff : g.contains p = true ↔ g.base.toNat ≤ p ∧ p < g.base.toNat + g.size := decide_eq_true_iff

theorem Region.containsWord_iff : g.containsWord p = true ↔ g.base.toNat ≤ p ∧ p + 4 ≤ g.base.toNat + g.size :=
  decide_eq_true_iff

/-- Each byte of a word in the region is in the region. -/
theorem Region.contains_of_containsWord (hword : g.containsWord q = true) (hle : q ≤ p) (hlt : p < q + 4) :
    g.contains p = true := by
  rw [Region.containsWord_iff] at hword
  rw [Region.contains_iff]
  omega

/-- A byte outside the region is outside every word in it. -/
theorem Region.outside_of_containsWord (hword : g.containsWord q = true) (hout : g.contains p = false) :
    p < q ∨ q + 4 ≤ p := by
  by_contra hin
  rw [Region.contains_of_containsWord hword (by omega) (by omega)] at hout
  cases hout

end

section
variable {s t : State}

/-- The slot below an admitted SP is a word of RAM (R36, R100). -/
theorem State.containsWord_below_sp (h4 : 4 ≤ s.sp.toNat) (hsize : s.sp.toNat ≤ s.ram.size) :
    s.ram.containsWord (s.ram.base.toNat + (s.sp.toNat - 4)) = true := by
  rw [Region.containsWord_iff]
  omega

/-- SP lowered by 4 and a word stored there, the slot as a number. -/
theorem State.stackWrite_below_sp (v : Word) (h4 : 4 ≤ s.sp.toNat) :
    (s.setReg Reg.sp (s.sp - 4)).stackWrite (s.sp - 4) v =
      (s.setReg Reg.sp (s.sp - 4)).storeWord (s.ram.base.toNat + (s.sp.toNat - 4)) v := by
  simp only [State.stackWrite, State.slot, toNat_sub_four h4, State.ram_setReg]

/-! The bytes a memory lists. -/

/-- Memory is canonical and lists only bytes of the two regions: what `State.Inv` says of memory. -/
structure Memory.Within (rom ram : Region) (m : Memory) : Prop where
  wf : m.wf
  listed : ∀ c ∈ m, rom.contains c.1 = true ∨ ram.contains c.1 = true

section
variable {rom ram : Region} {m : Memory} {p : Nat}

theorem Memory.Within.write (h : m.Within rom ram) (hp : rom.contains p = true ∨ ram.contains p = true) (b : Byte) :
    (m.write p b).Within rom ram where
  wf := Memory.wf_write h.wf p b
  listed := fun c hc => by
    rcases Memory.mem_write hc with hcp | hold
    · rwa [hcp]
    · exact h.listed c hold

theorem Memory.Within.writeWord (h : m.Within rom ram) (hp : ram.containsWord p = true) (v : Word) :
    (m.writeWord p v).Within rom ram where
  wf := Memory.wf_writeWord h.wf p v
  listed := fun c hc => by
    rcases Memory.mem_writeWord hc with ⟨hle, hlt⟩ | hold
    · exact .inr (Region.contains_of_containsWord hp hle hlt)
    · exact h.listed c hold

/-- A ROM buffer of the region's size loaded into an empty memory. -/
theorem Memory.Within.load_rom {buffer : List Byte} (hlen : buffer.length = rom.size) :
    (Memory.load [] rom.base.toNat buffer).Within rom ram where
  wf := Memory.wf_load Memory.wf_nil _ _
  listed := fun c hc => by
    rcases Memory.mem_load hc with hin | hnil
    · rw [hlen] at hin
      exact .inl (Region.contains_iff.mpr hin)
    · cases hnil

end

/-- The memory of the state lists only bytes of the state's own regions. -/
def State.MemWithin (s : State) : Prop := s.mem.Within s.rom s.ram

theorem State.MemWithin.storeWord (h : s.MemWithin) {p : Nat} (hp : s.ram.containsWord p = true) (v : Word) :
    (s.storeWord p v).MemWithin := Memory.Within.writeWord h hp v

theorem State.MemWithin.storeWord_below_sp (h : s.MemWithin) (h4 : 4 ≤ s.sp.toNat) (hsize : s.sp.toNat ≤ s.ram.size) (v : Word) :
    ((s.setReg Reg.sp (s.sp - 4)).storeWord (s.ram.base.toNat + (s.sp.toNat - 4)) v).MemWithin :=
  Memory.Within.writeWord h (State.containsWord_below_sp h4 hsize) v

theorem CallbackEffect.memWithin (heffect : CallbackEffect s t) (h : s.MemWithin) : t.MemWithin := by
  cases heffect with
  | read => exact h
  | wrote r v _ => exact h
  | pushed v h4 hsize =>
    rw [State.stackWrite_below_sp v h4]
    exact h.storeWord_below_sp h4 hsize v
  | wroteByte p b hp => exact Memory.Within.write h hp b

theorem AnswerTaken.memWithin (htaken : AnswerTaken s t) (h : s.MemWithin) : t.MemWithin := by
  rw [State.MemWithin, htaken.mem, htaken.config.rom, htaken.config.ram]
  exact h

/-- A callback writes only bytes of the regions. -/
theorem memWithin_of_syscall {cb : Nat} {code : Byte}
    (hcalls : callbackCalls (s.takeAnswer cb code).1.acts (s.takeAnswer cb code).2 = .ok t) (h : s.MemWithin) :
    t.MemWithin :=
  callbackCalls_induction (fun _ _ e => e.memWithin) hcalls ((s.takeAnswer_taken cb code).memWithin h)

theorem ExecNext.memWithin {i : Instr} (hnext : ExecNext s i t) (h : s.MemWithin) : t.MemWithin := by
  cases hnext
  case pushed r h4 hsize =>
    rw [State.pushed_eq h4]
    exact h.storeWord_below_sp h4 hsize _
  case stored p r hp => exact h.storeWord hp _
  case returned u code cb hcalls => exact memWithin_of_syscall (t := u) hcalls h
  case stopped u code cb hcalls => exact memWithin_of_syscall (t := u) hcalls h
  all_goals exact h

theorem CoreNext.memWithin (hnext : CoreNext s t) (h : s.MemWithin) : t.MemWithin := by
  cases hnext with
  | fetchFailed d =>
    obtain ⟨e, L, hraise⟩ := fetchFailed_eq_raise d s
    rw [hraise]
    exact h
  | skipped i _ => exact h
  | counted _ hexec _ => exact (exec_next hexec).memWithin h
  | ended _ hexec _ => exact (exec_next hexec).memWithin h

/-- Settles O12: the only instructions but SYSCALL that write memory are PUSH and STORE, each a word inside RAM. -/
theorem noInstructionWritesOutsideRam : Obligations.NoInstructionWritesOutsideRam := by
  intro i s t hi hm hexec p hout
  cases exec_next hexec
  case pushed r h4 hsize =>
    rw [State.byte_advance, State.pushed_eq h4]
    exact Memory.read_writeWord_outside hm _
      (Region.outside_of_containsWord (State.containsWord_below_sp h4 hsize) hout)
  case stored q r hq => exact Memory.read_writeWord_outside hm _ (Region.outside_of_containsWord hq hout)
  case returned | stopped => exact absurd rfl hi
  all_goals rfl

end

end Sys2Proof.Machine
end

section
/-! PROOFS. The invariant of the machine (10_state R19; 20_memory R30; 40_sequencer R77): it holds after reset, and every step of
the core and of the host keeps it. -/

namespace Sys2Proof.Machine

section
variable {s t : State}

theorem State.Inv.memWithin (h : s.Inv) : s.MemWithin := ⟨h.memWf, h.memInRegions⟩

/-- Settles O10: the reset memory lists nothing, the reference regions are disjoint, and no run has begun. -/
theorem resetMeetsInvariant : Obligations.ResetMeetsInvariant where
  memWf := Memory.wf_nil
  memInRegions := fun _ hc => absurd hc List.not_mem_nil
  regions := by decide
  budget := nofun
  paused := nofun

/-- A step of the core keeps the invariant: the bytes it writes lie in the regions, and it counts up to the budget only. -/
theorem State.Inv.core_step (h : s.Inv) (hrun : s.phase = .running) (hnext : CoreNext s t) : t.Inv := by
  have hconfig := hnext.config
  have hwithin := hnext.memWithin h.memWithin
  have hregions : regionsValid t.rom t.ram = true := by rw [hconfig.rom, hconfig.ram]; exact h.regions
  have hbelow := h.budget hrun
  refine ⟨hwithin.wf, hwithin.listed, hregions, fun hgoesOn => ?_, fun hpaused => ?_⟩ <;>
    rw [hconfig.maxInstructions]
  · cases hnext.ticks hrun with
    | counted hcount hphase =>
      rw [hphase, State.phaseAfterCount_eq_running_iff] at hgoesOn
      omega
    | ended r _ _ hphase => cases hphase.symm.trans hgoesOn
  · cases hnext.ticks hrun with
    | counted hcount hphase =>
      rw [hphase, State.phaseAfterCount_eq_paused_iff] at hpaused
      omega
    | ended r hr _ hphase =>
      cases hphase.symm.trans hpaused
      exact absurd rfl hr

/-- A call that has one of a callback's effects keeps the invariant. -/
theorem State.Inv.of_callbackEffect (h : s.Inv) (heffect : CallbackEffect s t) : t.Inv := by
  obtain ⟨-, -, hconfig, hrun⟩ := heffect.keeps
  have hwithin := heffect.memWithin h.memWithin
  refine ⟨hwithin.wf, hwithin.listed, ?_, ?_, ?_⟩
  · rw [hconfig.rom, hconfig.ram]
    exact h.regions
  · rw [hrun.phase, hrun.count, hconfig.maxInstructions]
    exact h.budget
  · rw [hrun.phase, hrun.count, hconfig.maxInstructions]
    exact h.paused

theorem State.Inv.initialize {rom ram : Region} {buffer : List Byte} {hint : Nat}
    (hok : hostInitialize rom ram buffer hint s = .ok t) : t.Inv := by
  unfold hostInitialize at hok
  split at hok
  · split at hok
    · cases hok
      have hwithin : (Memory.load [] rom.base.toNat buffer).Within rom ram := .load_rom ‹_›
      exact ⟨hwithin.wf, hwithin.listed, ‹_›, nofun, nofun⟩
    · cases hok
  · cases hok

/-- A run begins with its counter at 0, below any budget. -/
theorem State.Inv.run {size budget : Nat} (h : s.Inv) (hok : hostRun size budget s = .ok t) : t.Inv := by
  unfold hostRun at hok
  split at hok
  · split at hok
    · cases hok
      exact ⟨h.memWf, h.memInRegions, h.regions, fun _ => Nat.eq_zero_or_pos budget, nofun⟩
    · cases hok
  · cases hok

/-- A write of IP starts no run and pauses none. -/
theorem Phase.afterIpWrite_eq_running {ph : Phase} (h : ph.afterIpWrite = .running) : ph = .running := by
  cases ph with
  | running => rfl
  | ready => cases h
  | stopped => cases h

theorem Phase.afterIpWrite_ne_stopped (ph : Phase) (r : RunResult) : ph.afterIpWrite ≠ .stopped r := by
  cases ph <;> nofun

theorem State.Inv.setRegister {id : Nat} {v : Word} (h : s.Inv) (hok : hostSetRegister id v s = .ok t) : t.Inv := by
  unfold hostSetRegister at hok
  split at hok
  · cases hok
    refine ⟨h.memWf, h.memInRegions, h.regions, fun hrun => h.budget ?_, fun hpaused => h.paused ?_⟩
    · dsimp only at hrun
      split at hrun
      · exact Phase.afterIpWrite_eq_running hrun
      · exact hrun
    · dsimp only at hpaused
      split at hpaused
      · exact absurd hpaused (Phase.afterIpWrite_ne_stopped _ _)
      · exact hpaused
  · cases hok

/-- Every call of the host that is answered keeps the invariant. -/
theorem State.Inv.host_call {a : HostAction} (h : s.Inv) (hok : hostCall a s = .ok t) : t.Inv := by
  cases a with
  | bind rom ram buffer hint => exact .initialize hok
  | run size budget => exact h.run hok
  | getRegister id => rw [hostGetRegister_ok hok]; exact h
  | setRegister id v => exact h.setRegister hok
  | rawPush v => exact h.of_callbackEffect (hostRawPush_ok hok)
  | rawPop => exact h.of_callbackEffect (hostRawPop_ok hok)
  | memory p => rw [hostMemory_ok hok]; exact h
  | writeByte p b => exact h.of_callbackEffect (hostWriteByte_ok hok)
  | register cb =>
    cases hok
    exact ⟨h.memWf, h.memInRegions, h.regions, h.budget, h.paused⟩

/-- The queue of the host's calls is no part of the invariant. -/
theorem State.Inv.with_host (h : s.Inv) (rest : List HostAction) : ({ s with host := rest } : State).Inv :=
  ⟨h.memWf, h.memInRegions, h.regions, h.budget, h.paused⟩

theorem State.Inv.host_step (h : s.Inv) (hstep : hostStep s = .next t) : t.Inv := by
  unfold hostStep at hstep
  split at hstep
  · cases hstep
    exact h
  · split at hstep
    · cases hstep
      exact (h.with_host _).host_call ‹_›
    · cases hstep

/-- Settles O9: inside a run the step is one of `CoreNext`, outside it a call of the host. -/
theorem stepKeepsInvariant : Obligations.StepKeepsInvariant := by
  intro s t h hstep
  by_cases hrun : s.phase = .running
  · exact h.core_step hrun (step_running_next hrun hstep)
  · rw [step_idle hrun] at hstep
    exact h.host_step hstep

end

end Sys2Proof.Machine
end

section
/-! PROOFS. What an executed instruction leaves unchanged, read off the list of its next states `ExecNext`: precision of errors
(60_exceptions R153), the skip flag (10_state R16), IP (R14), the registers (R11, R102). -/

namespace Sys2Proof.Machine

/-- Settles O13: the next states whose phase is an error are those of `raise`, which changes IP alone. -/
theorem errorsArePrecise : Obligations.ErrorsArePrecise := by
  intro i s t e hrun hexec herror
  rcases (exec_next hexec).phase with hsame | ⟨e', rfl⟩ | hfinished
  · cases hrun.symm.trans (hsame.symm.trans herror)
  · cases herror
    exact .of_endRun s _ _
  · cases hfinished.symm.trans herror

/-- Settles O14: only SKIPZ and SKIPNZ set the flag, and a callback keeps it. -/
theorem onlySkipInstructionsWriteSkip : Obligations.OnlySkipInstructionsWriteSkip := by
  intro i s t hz hnz hexec
  cases exec_next hexec
  case armed on hi => exact (hi.elim hz hnz).elim
  case returned u code cb hcalls => exact (SyscallKeeps.of_callbackCalls hcalls).skip
  case stopped u code cb hcalls => exact (SyscallKeeps.of_callbackCalls hcalls).skip
  all_goals rfl

/-- Settles O15: every other instruction after which the run goes on ends in `advance` by its own operand bytes. -/
theorem onlyJumpsLeaveSequence : Obligations.OnlyJumpsLeaveSequence := by
  intro i s t hcall hret hjmp hjr hrun hexec hgoesOn
  cases exec_next hexec
  case raised | halted | stopped => cases hgoesOn
  case called => exact absurd rfl hcall
  case jumped target hi => simp only [hret, hjmp, hjr, or_self] at hi
  case fellThrough => exact s.ip_advance 0
  case wrote d v hd _ => exact s.ip_writeBack v _ hd
  case pushed r _ _ => rw [State.ip_advance, State.ip_pushed]; rfl
  case popped r hr _ => rw [State.ip_advance, s.ip_popped hr]; rfl
  case stored p r _ => exact State.ip_advance _ 3
  case armed on hi =>
    have hlen : i.length = 1 + 1 := by rcases hi with h | h <;> rw [Instr.length, Instr.argLen, h] <;> rfl
    rw [State.ip_advance, hlen, State.ip_setSkip]
  case returned u code cb hcalls =>
    rw [State.ip_advance, (SyscallKeeps.of_callbackCalls hcalls).ip]
    rfl

theorem State.reg_popped_ne (s : State) {r k : Reg} (hr : k ≠ r) (hsp : k ≠ Reg.sp) : (s.popped r).reg k = s.reg k := by
  rw [State.popped, State.reg_setReg_ne _ _ hsp, State.reg_setReg_ne _ _ hr]

theorem State.reg_pushed_ne (s : State) (r : Reg) {k : Reg} (hsp : k ≠ Reg.sp) : (s.pushed r).reg k = s.reg k := by
  rw [State.pushed, State.reg_stackWrite, State.reg_setReg_ne _ _ hsp]

/-- Settles O16: a register the instruction may not write is none of those its next state sets. -/
theorem registersChangeOnlyAsNamed : Obligations.RegistersChangeOnlyAsNamed := by
  intro i s t k hi hexec hip hkept
  obtain ⟨hdest, hcall, hstack⟩ : i.destination ≠ some k.field ∧ ¬ (i.op = .call ∧ k = Reg.ra) ∧
      ¬ ((i.op = .push ∨ i.op = .pop) ∧ k = Reg.sp) := by simpa only [Instr.mayWrite, not_or] using hkept
  cases exec_next hexec
  case raised | halted => exact State.reg_endRun_ne s _ _ hip
  case fellThrough => exact s.reg_advance_ne 0 hip
  case wrote d v _ hd => exact s.reg_writeBack_ne v _ (fun h => hdest (h ▸ hd)) hip
  case pushed r _ _ =>
    rw [State.reg_advance_ne _ 1 hip, State.reg_pushed_ne s r fun h => hstack ⟨.inl rfl, h⟩]
  case popped r _ _ =>
    rw [State.reg_advance_ne _ 1 hip,
      s.reg_popped_ne (fun h => hdest (by rw [h]; rfl)) fun h => hstack ⟨.inr rfl, h⟩]
  case stored p r _ => exact State.reg_advance_ne _ 3 hip
  case called p target => rw [State.reg_jump_ne _ _ hip, State.reg_setReg_ne _ _ fun h => hcall ⟨rfl, h⟩]
  case jumped target _ => exact s.reg_jump_ne target hip
  case armed on _ => exact State.reg_advance_ne _ 1 hip
  case returned | stopped => exact absurd rfl hi

end Sys2Proof.Machine
end

section
/-! PROOFS. What an instruction does not depend on: the counter, the stack hint and, but for POP, `program_size` (10_state R17, R18;
70_reset R170), and for SKIPZ and SKIPNZ the registers' values (49_jump_skip R136, R137). -/

namespace Sys2Proof.Machine

/-- The state with another counter, another stack hint and another `program_size`. -/
def State.withRunFields (s : State) (count hint size : Nat) : State :=
  { s with count := count, stackSizeHint := hint, programSize := size }

/-- `withReg_map` for two continuations given apart: neither need be written as one function of the state. -/
theorem withReg_transfer {L : Nat} {b : RegField} {s s' t : State} {k k' : Reg → Effect} {f : State → State}
    (h : withReg L b s k = .next t) (hraise : s'.raise .invalidRegister L = f (s.raise .invalidRegister L))
    (hk : ∀ r u, k r = .next u → k' r = .next (f u)) : withReg L b s' k' = .next (f t) := by
  by_cases hb : b.toNat < registerCount
  · obtain ⟨r, rfl, -⟩ := Reg.exists_field hb
    by_cases hip : r = Reg.ip
    · rw [withReg_ip (by rw [hip, Reg.toNat_field])] at h
      cases h
    · rw [withReg_field hip] at h ⊢
      exact hk r t h
  · rw [withReg_invalid hb] at h ⊢
    cases h
    rw [hraise]

section
variable {s t : State} {count hint size : Nat}

/-! The callback. -/

/-- A call of a callback does the same whatever those fields hold, and leaves them as they are. -/
theorem callbackCall_withRunFields (a : HostAction) (s : State) :
    callbackCall a (s.withRunFields count hint size) =
      (callbackCall a s).map fun t => t.withRunFields count hint size := by
  cases a with
  | bind | run | register => rfl
  | getRegister id =>
    simp only [callbackCall, callbackGetRegister, hostGetRegister]
    split <;> rfl
  | setRegister id v =>
    simp only [callbackCall, hostSetRegister]
    split
    · rfl
    · split <;> rfl
  | rawPush v =>
    simp only [callbackCall, hostCall, hostRawPush, apply_ite (Except.map _)]
    rfl
  | rawPop =>
    simp only [callbackCall, hostCall, hostRawPop, apply_ite (Except.map _)]
    rfl
  | memory p =>
    simp only [callbackCall, hostCall, hostMemory, apply_ite (Except.map _)]
    rfl
  | writeByte p b =>
    simp only [callbackCall, hostCall, hostWriteByte, apply_ite (Except.map _)]
    rfl

theorem callbackCalls_withRunFields : ∀ (acts : List HostAction) (s : State),
    callbackCalls acts (s.withRunFields count hint size) =
      (callbackCalls acts s).map fun t => t.withRunFields count hint size
  | [], _ => rfl
  | a :: acts, s => by
    rw [callbackCalls, callbackCalls, callbackCall_withRunFields]
    cases callbackCall a s with
    | ok t => exact callbackCalls_withRunFields acts t
    | error r => rfl

theorem State.takeAnswer_withRunFields (s : State) (cb : Nat) (code : Byte) :
    (s.withRunFields count hint size).takeAnswer cb code =
      ((s.takeAnswer cb code).1, (s.takeAnswer cb code).2.withRunFields count hint size) := by
  obtain ⟨regs, skip, mem, rom, ram, stackSizeHint, callback, phase, programSize, maxInstructions, count, host, answers, draws⟩ := s
  cases answers <;> rfl

theorem execSyscall_withRunFields {code : Byte} (h : execSyscall code s = .next t) :
    execSyscall code (s.withRunFields count hint size) = .next (t.withRunFields count hint size) := by
  unfold execSyscall at h ⊢
  split at h
  · rename_i hnone
    cases h
    rw [show (s.withRunFields count hint size).callback = none from hnone]
    rfl
  · rename_i cb hsome
    rw [show (s.withRunFields count hint size).callback = some cb from hsome]
    simp only [s.takeAnswer_withRunFields, afterCallback, callbackCalls_withRunFields] at h ⊢
    cases hcalls : callbackCalls (s.takeAnswer cb code).1.acts (s.takeAnswer cb code).2 with
    | error r => rw [hcalls] at h; cases h
    | ok u =>
      rw [hcalls] at h
      dsimp only [Except.map] at h ⊢
      split at h <;> cases h
      · exact if_pos ‹_›
      · exact if_neg ‹_›

/-! The other instructions. -/

theorem binary_withRunFields {op : Word → Word → Word} {b c : RegField} (h : binary op b c s = .next t) :
    binary op b c (s.withRunFields count hint size) = .next (t.withRunFields count hint size) :=
  withRegs_map (f := fun u => u.withRunFields count hint size)
    (k := fun s d r => .next (s.writeBack d (op (s.reg d) (s.reg r)) 2)) h (fun _ => rfl)
    fun _ _ _ h => by cases h; rfl

/-- A one-register instruction whose continuation answers the same up to those fields. -/
theorem withReg_withRunFields {L : Nat} {b : RegField} {k k' : Reg → Effect} (h : withReg L b s k = .next t)
    (hk : ∀ r u, k r = .next u → k' r = .next (u.withRunFields count hint size)) :
    withReg L b (s.withRunFields count hint size) k' = .next (t.withRunFields count hint size) :=
  withReg_transfer (f := fun u => u.withRunFields count hint size) h rfl hk

theorem execPush_withRunFields {b : RegField} (h : execPush b s = .next t) :
    execPush b (s.withRunFields count hint size) = .next (t.withRunFields count hint size) := by
  refine withReg_withRunFields h fun r u h => ?_
  split at h
  · cases h
    exact if_pos ‹_›
  · split at h
    · cases h
    · cases h
      exact (if_neg ‹_›).trans (if_neg ‹_›)

theorem execPop_withRunFields {b : RegField} (h : execPop b s = .next t) :
    execPop b (s.withRunFields count hint s.programSize) = .next (t.withRunFields count hint s.programSize) := by
  refine withReg_withRunFields h fun r u h => ?_
  split at h
  · cases h
    exact if_pos ‹_›
  · split at h
    · cases h
      exact (if_neg ‹_›).trans (if_pos ‹_›)
    · cases h
      exact (if_neg ‹_›).trans (if_neg ‹_›)

/-- The same for a meaning that is one test of a field those fields do not touch, between two next states. -/
theorem ite_next_withRunFields {c : Prop} [Decidable c] {u v u' v' : State}
    (h : (if c then Host.Outcome.next u else .next v : Effect) = .next t) (hu : u' = u.withRunFields count hint size)
    (hv : v' = v.withRunFields count hint size) :
    (if c then Host.Outcome.next u' else .next v' : Effect) = .next (t.withRunFields count hint size) := by
  split at h <;> cases h
  · rw [if_pos ‹_›, hu]
  · rw [if_neg ‹_›, hv]

/-- No instruction reads the counter or the stack hint, and only POP reads `program_size`; none writes them. -/
theorem exec_withRunFields {i : Instr} (h : exec i s = .next t) (hsize : i.op = .pop → size = s.programSize) :
    exec i (s.withRunFields count hint size) = .next (t.withRunFields count hint size) := by
  cases i with
  | nop => cases h; rfl
  | halt => cases h; rfl
  | syscall code => exact execSyscall_withRunFields h
  | lcons b v =>
    simp only [exec, execLcons] at h ⊢
    exact withReg_withRunFields h fun _ _ h => by cases h; rfl
  | not b =>
    simp only [exec, execNot] at h ⊢
    exact withReg_withRunFields h fun _ _ h => by cases h; rfl
  | jr b =>
    simp only [exec, execJr] at h ⊢
    exact withReg_withRunFields h fun _ _ h => by cases h; rfl
  | skipz b =>
    simp only [exec, execSkipz] at h ⊢
    exact withReg_withRunFields h fun _ _ h => by cases h; rfl
  | skipnz b =>
    simp only [exec, execSkipnz] at h ⊢
    exact withReg_withRunFields h fun _ _ h => by cases h; rfl
  | push b => exact execPush_withRunFields h
  | pop b =>
    rw [hsize rfl]
    exact execPop_withRunFields h
  | call p => exact ite_next_withRunFields h rfl rfl
  | ret => cases h; rfl
  | store p b =>
    simp only [exec, execStore] at h ⊢
    exact withReg_withRunFields h fun _ _ h => ite_next_withRunFields h rfl rfl
  | load b p =>
    simp only [exec, execLoad] at h ⊢
    exact withReg_withRunFields h fun _ _ h => ite_next_withRunFields h rfl rfl
  | div b c =>
    refine withRegs_map (f := fun u => u.withRunFields count hint size) (k := fun s d r =>
      if (s.reg r).toNat = 0 then .fault .undefinedDivByZero
      else .next (s.writeBack d (divWord (s.reg d) (s.reg r)) 2)) h (fun _ => rfl) fun d r u h => ?_
    split at h <;> cases h
    exact if_neg ‹_›
  | mov b c => exact binary_withRunFields (op := fun _ y => y) h
  | add | sub | mul | shl | shr | ishr | and | or | xor => exact binary_withRunFields h
  | jmp p => exact ite_next_withRunFields h rfl rfl

/-- Settles O17: the fields not changed before the instruction are after it what they were before. -/
theorem countAndHintInvisible : Obligations.CountAndHintInvisible := by
  intro i s t count hint hexec
  have hnext := exec_next hexec
  refine ⟨?_, fun size hpop => ?_⟩
  · refine (exec_withRunFields (size := s.programSize) hexec fun _ => rfl).trans (congrArg Host.Outcome.next ?_)
    rw [State.withRunFields, ← hnext.config.programSize]
  · refine (exec_withRunFields (count := s.count) (hint := s.stackSizeHint) hexec (absurd · hpop)).trans
      (congrArg Host.Outcome.next ?_)
    rw [State.withRunFields, ← hnext.count, ← hnext.config.stackSizeHint]

end

/-! A register's value. -/

theorem State.setReg_comm (s : State) {r k : Reg} (v w : Word) (h : r ≠ k) :
    (s.setReg r v).setReg k w = (s.setReg k w).setReg r v := by
  simp only [State.setReg]
  rw [Vector.set_comm _ _ fun e => h (Fin.ext e)]

section
variable {s : State} {k : Reg} (v : Word)

theorem State.advance_setReg (hk : k ≠ Reg.ip) (L : Nat) : (s.setReg k v).advance L = (s.advance L).setReg k v := by
  rw [State.advance, State.ip_setReg_ne s v hk]
  exact s.setReg_comm v _ hk

theorem State.endRun_setReg (hk : k ≠ Reg.ip) (r : RunResult) (L : Nat) :
    (s.setReg k v).endRun r L = (s.endRun r L).setReg k v := by
  rw [State.endRun, State.ip_setReg_ne s v hk, State.jump, s.setReg_comm v _ hk]
  rfl

/-- A one-register instruction that sets the flag by the register's id alone, and falls through, answers the same up to the value
of any register but IP. -/
theorem withReg_setSkip_setReg {b : RegField} {on : Reg → Bool} {t : State} (hk : k ≠ Reg.ip)
    (h : withReg 1 b s (fun r => .next ((s.setSkip (on r)).advance 1)) = .next t) :
    withReg 1 b (s.setReg k v) (fun r => .next (((s.setReg k v).setSkip (on r)).advance 1)) = .next (t.setReg k v) :=
  withReg_transfer (f := fun u => u.setReg k v) h (State.endRun_setReg v hk _ 1) fun r u h => by
      cases h
      exact congrArg _ (State.advance_setReg (s := s.setSkip (on r)) v hk 1)

theorem exec_skip_setReg {i : Instr} {t : State} (hi : i.op = .skipz ∨ i.op = .skipnz) (hk : k ≠ Reg.ip)
    (h : exec i s = .next t) : exec i (s.setReg k v) = .next (t.setReg k v) := by
  cases i
  case skipz b => exact withReg_setSkip_setReg (on := idIsZero) v hk h
  case skipnz b => exact withReg_setSkip_setReg (on := fun r => !idIsZero r) v hk h
  all_goals exact hi.elim nofun nofun

end

/-- Settles O18: the next state is the same up to that register, so its flag, IP and phase are. -/
theorem skipIgnoresRegisterValues : Obligations.SkipIgnoresRegisterValues :=
  fun _ _ t k v hi hk hexec => ⟨t.setReg k v, exec_skip_setReg v hi hk hexec, rfl, t.ip_setReg_ne v hk, rfl⟩

end Sys2Proof.Machine
end

section
/-! PROOFS. What a callback can do (41_system R93; 60_exceptions R160 to R162): the permitted calls, in order, up to the first
refused one. -/

namespace Sys2Proof.Machine

section
variable {s t : State} {acts : List HostAction}

/-- Each permitted call does what it does between runs; only IP reads otherwise (log 22). -/
theorem callbackCalls_permitted (s : State) :
    (∀ id v, id ≠ 16 → callbackCalls [.setRegister id v] s = hostSetRegister id v s) ∧
    (∀ v, callbackCalls [.rawPush v] s = hostRawPush v s) ∧
    callbackCalls [.rawPop] s = (hostRawPop s).map Prod.snd ∧
    (∀ p b, callbackCalls [.writeByte p b] s = hostWriteByte p b s) ∧
    (∀ p, callbackCalls [.memory p] s = (hostMemory p s).map fun _ => s) ∧
    (∀ id, callbackCalls [.getRegister id] s = (callbackGetRegister id s).map fun _ => s) := by
  simp only [callbackCalls_singleton]
  exact ⟨fun _ _ hid => if_neg hid, fun _ => rfl, rfl, fun _ _ => rfl, fun _ => rfl, fun _ => rfl⟩

/-- A refused call ends the callback: the calls after it do not happen. -/
theorem callbackCalls_append_of_error {r : Refusal} (h : callbackCalls acts s = .error r) (rest : List HostAction) :
    callbackCalls (acts ++ rest) s = .error r := by
  rw [callbackCalls_append, h]
  rfl

theorem callbackCalls_append_of_ok (h : callbackCalls acts s = .ok t) (rest : List HostAction) :
    callbackCalls (acts ++ rest) s = callbackCalls rest t := by
  rw [callbackCalls_append, h]
  rfl

/-- A call that is refused ends the callback wherever it stands. -/
theorem callbackCalls_of_refused {a : HostAction} {r : Refusal} (h : callbackCalls acts s = .ok t)
    (ha : callbackCall a t = .error r) (rest : List HostAction) : callbackCalls (acts ++ a :: rest) s = .error r := by
  rw [callbackCalls_append_of_ok h, callbackCalls, ha]

/-- Settles O22: by `callbackCalls_keeps`, call by call, and by how a list of calls is cut at the one refused. -/
theorem callbackPowersBounded : Obligations.CallbackPowersBounded := by
  refine ⟨fun acts s t h => ?keeps, fun s => ?permitted, fun acts rest s => ⟨fun r h => ?refused, fun t h => ?ordered⟩⟩
  case keeps =>
    obtain ⟨hip, hskip, hconfig, hrun⟩ := callbackCalls_keeps h
    exact ⟨hip, hskip, hconfig, hrun⟩
  case permitted =>
    obtain ⟨hset, hpush, hpop, hwrite, hmemory, hget⟩ := callbackCalls_permitted s
    exact ⟨hset, hpush, hpop, hwrite, hmemory, hget, fun _ => callbackGetRegister_ne_ip s, callbackGetRegister_ip s⟩
  case refused => exact callbackCalls_append_of_error h rest
  case ordered =>
    exact ⟨callbackCalls_append_of_ok h rest, fun _ _ _ _ => callbackCalls_of_refused h rfl rest,
      fun _ _ => callbackCalls_of_refused h rfl rest, fun _ => callbackCalls_of_refused h rfl rest,
      fun _ => callbackCalls_of_refused h rfl rest⟩

end

end Sys2Proof.Machine
end

section
/-! PROOFS. NOP, RET, JR, DIV and ISHR (41_system R90, 44_call_return R106, 49_jump_skip R135, 46_arithmetic R118, 47_shift R124). -/

namespace Sys2Proof.Machine

/-! The register checks. -/

theorem checksRegisters_jr (b : RegField) : ChecksRegisters (.jr b) :=
  checksRegisters_of_withReg (fun s r => .next (s.jump (low16 (s.reg r)))) rfl fun _ => rfl

theorem checksRegisters_div (b c : RegField) : ChecksRegisters (.div b c) :=
  checksRegisters_of_withRegs (fun s d r => if (s.reg r).toNat = 0 then .fault .undefinedDivByZero
    else .next (s.writeBack d (divWord (s.reg d) (s.reg r)) 2)) rfl fun _ => rfl

theorem checksRegisters_ishr (b c : RegField) : ChecksRegisters (.ishr b c) :=
  checksRegisters_of_binary (shiftWord .ishr) rfl rfl fun _ => rfl

/-! The words. -/

theorem low16_eq (v : Word) : low16 v = BitVec.ofNat 32 (v.toNat % 65536) := by
  apply BitVec.eq_of_toNat_eq
  simp only [low16, BitVec.toNat_setWidth, BitVec.toNat_ofNat]

/-- The quotient of words is below `2 ^ 32`, so narrowing it loses nothing. -/
theorem toNat_divWord (x y : Word) : (divWord x y).toNat = x.toNat / y.toNat := by
  have hlt : x.toNat / y.toNat < 2 ^ 32 := Nat.lt_of_le_of_lt (Nat.div_le_self _ _) x.isLt
  rw [divWord, BitVec.toNat_ofNat, Nat.mod_eq_of_lt hlt]

/-- Bit `j` of an arithmetic shift is bit `j + n`, or the sign bit past the top (R124). -/
theorem getLsbD_shiftExact_ishr (x : Word) (n : Nat) {j : Nat} (hj : j < 32) :
    (shiftExact .ishr x n).getLsbD j = if j + n < 32 then x.getLsbD (j + n) else x.getLsbD 31 := by
  rw [shiftExact_ishr, BitVec.getLsbD_sshiftRight, decide_eq_false (Nat.not_le.mpr hj), Bool.not_false, Bool.true_and,
    Nat.add_comm n j, BitVec.msb_eq_getLsbD_last]

/-- Settles O19: NOP is `advance` past no operand byte. -/
theorem nopOnlyAdvances : Obligations.NopOnlyAdvances :=
  ⟨rfl, fun s => ⟨s.advance 0, rfl, .of_advance s 0⟩⟩

/-- Settles O29: RET is a jump and nothing else. -/
theorem retJumpsToRa : Obligations.RetJumpsToRa :=
  ⟨rfl, fun s => ⟨s.jump (s.reg Reg.ra), rfl, .of_jump s _⟩⟩

/-- Settles O40: on a valid register JR is a jump to its low 16 bits. -/
theorem jrTakesLowBits : Obligations.JrTakesLowBits := by
  refine ⟨fun r => ⟨rfl, checksRegisters_jr r⟩, fun r s hr => ⟨_, exec_jr hr, ?_⟩⟩
  rw [← low16_eq]
  exact .of_jump s _

/-- Settles O34: on valid registers DIV is a `writeBack` of the quotient, unless the divisor is zero. -/
theorem divFloorsOrStops : Obligations.DivFloorsOrStops := by
  refine ⟨fun d r => ⟨rfl, checksRegisters_div d r⟩, fun d r s hd hr => ⟨fun hne => ?_, fun hzero => ?_⟩⟩
  · have hexec := (exec_div (s := s) hd hr).trans (if_neg fun h => hne (BitVec.eq_of_toNat_eq h))
    refine (Completes.of_writeBack hd hexec).imp fun t ⟨hresult, frame⟩ => ⟨?_, frame⟩
    rw [hresult, toNat_divWord]
  · exact (exec_div hd hr).trans (if_pos (congrArg BitVec.toNat hzero))

/-- Settles O36: on valid registers ISHR is a `writeBack` of its shifted word, read bit by bit when the amount is in range. -/
theorem arithmeticShiftReplicatesSign : Obligations.ArithmeticShiftReplicatesSign := by
  refine ⟨fun d r => ⟨rfl, checksRegisters_ishr d r⟩, fun d r s hd hr => ?_⟩
  refine (Completes.of_shift hd (exec_ishr hd hr)).imp fun t ⟨frame, hexact, hoob⟩ => ⟨frame, fun hle j hj => ?_, hoob⟩
  rw [hexact hle, getLsbD_shiftExact_ishr _ _ hj]

end Sys2Proof.Machine
end

section
/-! PROOFS. LOAD and STORE (45_load_store R110, R111; 20_memory R34, R35, R43): a word of RAM, least significant byte first. -/

namespace Sys2Proof.Machine

theorem checksRegisters_store (p : Addr) (b : RegField) : ChecksRegisters (.store p b) :=
  checksRegisters_of_withReg (fun s r => if s.ram.containsWord p.toNat then
    .next ((s.storeWord p.toNat (s.reg r)).advance 3) else .next (s.raise .invalidAddress 3)) rfl fun _ => rfl

theorem checksRegisters_load (b : RegField) (p : Addr) : ChecksRegisters (.load b p) :=
  checksRegisters_of_withReg (fun s r => if s.ram.containsWord p.toNat then
    .next (s.writeBack r (s.loadWord p.toNat) 3) else .next (s.raise .invalidAddress 3)) rfl fun _ => rfl

section
variable {s t : State} {r : Reg} {p : Addr}

theorem exec_store_of_containsWord (hr : r ≠ Reg.ip) (h : s.ram.containsWord p.toNat = true) :
    exec (.store p r.field) s = .next ((s.storeWord p.toNat (s.reg r)).advance 3) :=
  (exec_store p hr).trans (if_pos h)

theorem exec_load_of_containsWord (hr : r ≠ Reg.ip) (h : s.ram.containsWord p.toNat = true) :
    exec (.load r.field p) s = .next (s.writeBack r (s.loadWord p.toNat) 3) :=
  (exec_load p hr).trans (if_pos h)

/-- The word stored, whatever else but memory the update changed. -/
theorem StoresWord.of_mem_eq {q : Nat} {v : Word} (hm : s.mem.wf) (h : t.mem = s.mem.writeWord q v) : StoresWord q v s t := by
  have stored := StoresWord.of_storeWord hm q v
  have hbyte : ∀ k, t.byte k = (s.storeWord q v).byte k := fun k => congrArg (fun m => Memory.read m k) h
  exact ⟨(hbyte _).trans stored.byte0, (hbyte _).trans stored.byte1, (hbyte _).trans stored.byte2,
    (hbyte _).trans stored.byte3, fun k hk => (hbyte k).trans (stored.outside k hk)⟩

/-- Settles O30: inside RAM the STORE writes one word and falls through; outside it raises. -/
theorem storeWritesRam : Obligations.StoreWritesRam := by
  refine ⟨fun p r => ⟨rfl, checksRegisters_store p r⟩, fun p r s hr => ⟨fun hin hm => ?_, fun hout => ?_⟩⟩
  · have frame := OnlyRegs.of_advance (s.storeWord p.toNat (s.reg r)) 3
    refine ⟨_, exec_store_of_containsWord hr (Region.containsWord_iff.mpr hin), .of_mem_eq hm rfl, frame.ip, frame.regs, rfl,
      ?_, ?_⟩ <;> constructor <;> rfl
  · exact .of_eq ((exec_store p hr).trans (if_neg (mt Region.containsWord_iff.mp hout)))

/-- Settles O31: inside RAM the LOAD is a `writeBack` of the word read there; outside it raises. -/
theorem loadReadsRam : Obligations.LoadReadsRam := by
  refine ⟨fun r p => ⟨rfl, checksRegisters_load r p⟩, fun r p s hr => ⟨fun hin => ?_, fun hout => ?_⟩⟩
  · have hexec := exec_load_of_containsWord hr (Region.containsWord_iff.mpr hin)
    refine (Completes.of_writeBack hr hexec).imp fun t ⟨hresult, frame⟩ => ⟨?_, frame⟩
    rw [hresult, State.loadWord_toNat]
  · exact .of_eq ((exec_load p hr).trans (if_neg (mt Region.containsWord_iff.mp hout)))

/-- Settles O32: the STORE leaves RAM where it is, so the LOAD reads the word back. -/
theorem storeThenLoadReturnsWord : Obligations.StoreThenLoadReturnsWord := by
  intro p r k s hr hk hm hin
  refine ⟨_, _, exec_store_of_containsWord hr hin, exec_load_of_containsWord hk hin, ?_⟩
  rw [State.reg_writeBack_self _ _ 3 hk]
  exact Memory.readWord_writeWord hm p.toNat (s.reg r)

end

end Sys2Proof.Machine
end

section
/-! PROOFS. PUSH and POP (43_stack R100, R101): SP moves by 4, and the word below it is written or read. -/

namespace Sys2Proof.Machine

theorem checksRegisters_push (b : RegField) : ChecksRegisters (.push b) :=
  checksRegisters_of_withReg (fun s r => if s.sp.toNat < 4 then .next (s.raise .stackOverflow 1)
    else if s.ram.size < s.sp.toNat then .fault .unspecStackRange else .next ((s.pushed r).advance 1)) rfl fun _ => rfl

theorem checksRegisters_pop (b : RegField) : ChecksRegisters (.pop b) :=
  checksRegisters_of_withReg (fun s r => if s.ram.size < s.sp.toNat + 4 then .next (s.raise .stackUnderflow 1)
    else if s.sp.toNat + 4 < s.programSize then .next (s.raise .stackOverflow 1)
    else .next ((s.popped r).advance 1)) rfl fun _ => rfl

theorem toNat_add_four (w : Word) : (w + 4).toNat = (w.toNat + 4) % 2 ^ 32 := BitVec.toNat_add w 4

section
variable {s : State} {r : Reg}

theorem exec_push_of_admitted (hr : r ≠ Reg.ip) (h4 : 4 ≤ s.sp.toNat) (hsize : s.sp.toNat ≤ s.ram.size) :
    exec (.push r.field) s = .next ((s.pushed r).advance 1) := by
  rw [exec_push hr, if_neg (Nat.not_lt.mpr h4), if_neg (Nat.not_lt.mpr hsize)]

theorem exec_pop_of_admitted (hr : r ≠ Reg.ip) (hsize : s.sp.toNat + 4 ≤ s.ram.size)
    (hprogram : s.programSize ≤ s.sp.toNat + 4) : exec (.pop r.field) s = .next ((s.popped r).advance 1) := by
  rw [exec_pop hr, if_neg (Nat.not_lt.mpr hsize), if_neg (Nat.not_lt.mpr hprogram)]

/-! What PUSH and POP leave, up to IP. -/

theorem State.sp_advance (s : State) (L : Nat) : (s.advance L).sp = s.sp := s.reg_advance_ne L Reg.sp_ne_ip

theorem State.sp_pushed (s : State) (r : Reg) : (s.pushed r).sp = s.sp - 4 :=
  State.reg_setReg_self s Reg.sp _

theorem State.mem_pushed (h4 : 4 ≤ s.sp.toNat) : (s.pushed r).mem =
    s.mem.writeWord (s.ram.base.toNat + (s.sp.toNat - 4)) (if r = Reg.sp then s.sp - 4 else s.reg r) := by
  rw [State.pushed_eq h4]
  rfl

theorem State.reg_popped_self (s : State) (hr : r ≠ Reg.sp) : (s.popped r).reg r = s.stackRead s.sp := by
  rw [State.popped, State.reg_setReg_ne _ _ hr, State.reg_setReg_self]

/-- POP of another register than SP raises SP by 4. -/
theorem State.sp_popped_ne (s : State) (hr : r ≠ Reg.sp) : (s.popped r).sp = s.sp + 4 := by
  rw [State.popped, State.sp, State.reg_setReg_self, State.sp, State.reg_setReg_ne _ _ hr.symm]
  rfl

/-- POP SP leaves the word read plus 4 (R101). -/
theorem State.sp_popped_self (s : State) : (s.popped Reg.sp).sp = s.stackRead s.sp + 4 := by
  rw [State.popped, State.sp, State.reg_setReg_self, State.sp, State.reg_setReg_self]

/-- The word at the top of the stack, by its bytes. -/
theorem State.stackRead_sp_toNat (s : State) : (s.stackRead s.sp).toNat = s.wordAt (s.ram.base.toNat + s.sp.toNat) :=
  s.loadWord_toNat _

theorem OnlyRegs.of_popped (s : State) (hr : r ≠ Reg.ip) : OnlyRegs [r, Reg.sp] 2 s ((s.popped r).advance 1) where
  ip := by rw [State.ip_advance, s.ip_popped hr]
  regs := fun k hk => by
    simp only [List.mem_cons, List.not_mem_nil, or_false, not_or] at hk
    obtain ⟨hip, hkr, hsp⟩ := hk
    rw [State.reg_advance_ne _ 1 hip, s.reg_popped_ne hkr hsp]
  skip := rfl
  mem := fun _ => rfl
  config := by constructor <;> rfl
  run := by constructor <;> rfl

/-- Settles O25: an admitted PUSH is `pushed`, which lowers SP and writes one word of memory. -/
theorem pushStoresBelowSp : Obligations.PushStoresBelowSp := by
  refine ⟨fun r => ⟨rfl, checksRegisters_push r⟩,
    fun r s hr => ⟨fun hlow => ?overflow, fun h4 hhigh => ?range, fun h4 hsize hm => ?admitted⟩⟩
  case overflow => exact .of_eq ((exec_push hr).trans (if_pos hlow))
  case range => exact (exec_push hr).trans ((if_neg (Nat.not_lt.mpr h4)).trans (if_pos hhigh))
  case admitted =>
    refine ⟨_, exec_push_of_admitted hr h4 hsize, ?_, .of_mem_eq hm (State.mem_pushed h4), ?_, fun k hk => ?_, rfl, ?_, ?_⟩
    · rw [State.sp_advance, State.sp_pushed, toNat_sub_four h4]
    · rw [State.ip_advance, State.ip_pushed]
    · simp only [List.mem_cons, List.not_mem_nil, or_false, not_or] at hk
      rw [State.reg_advance_ne _ 1 hk.1, s.reg_pushed_ne r hk.2]
    · constructor <;> rfl
    · constructor <;> rfl

/-- Settles O26: an admitted POP is `popped`, which writes its register and then SP, and nothing else. -/
theorem popReadsAtSp : Obligations.PopReadsAtSp := by
  refine ⟨fun r => ⟨rfl, checksRegisters_pop r⟩,
    fun r s hr => ⟨fun hhigh => ?underflow, fun hsize hlow => ?guard, fun hsize hprogram => ?admitted⟩⟩
  case underflow => exact .of_eq ((exec_pop hr).trans (if_pos hhigh))
  case guard => exact .of_eq ((exec_pop hr).trans ((if_neg (Nat.not_lt.mpr hsize)).trans (if_pos hlow)))
  case admitted =>
    refine ⟨_, exec_pop_of_admitted hr hsize hprogram, fun hne => ⟨?_, ?_⟩, fun heq => ?_, .of_popped s hr⟩
    · rw [State.reg_advance_ne _ 1 hr, s.reg_popped_self hne, State.stackRead_sp_toNat]
    · rw [State.sp_advance, s.sp_popped_ne hne, toNat_add_four]
    · rw [State.sp_advance, heq, State.sp_popped_self, toNat_add_four, State.stackRead_sp_toNat]

/-- The word at the top of the stack after a PUSH is the one pushed. -/
theorem State.stackRead_pushed (hm : s.mem.wf) (h4 : 4 ≤ s.sp.toNat) (hr : r ≠ Reg.sp) :
    (s.pushed r).stackRead (s.pushed r).sp = s.reg r := by
  have hslot : (s.pushed r).slot (s.pushed r).sp = s.ram.base.toNat + (s.sp.toNat - 4) := by
    rw [State.sp_pushed, State.slot, toNat_sub_four h4]
    rfl
  rw [State.stackRead, hslot, State.loadWord, State.mem_pushed h4, if_neg hr, Memory.readWord_writeWord hm]

/-- Settles O27: the POP finds SP lowered by 4 and the pushed word there, so it is admitted, reads the word and raises SP again. -/
theorem pushThenPopRestores : Obligations.PushThenPopRestores := by
  intro r k s hr hrsp hk hksp hm h4 hsize hprogram
  have hsp : ((s.pushed r).advance 1).sp = s.sp - 4 := (State.sp_advance _ 1).trans (s.sp_pushed r)
  have hback : ((s.pushed r).advance 1).sp.toNat + 4 = s.sp.toNat := by rw [hsp, toNat_sub_four h4]; omega
  refine ⟨_, _, exec_push_of_admitted hr h4 hsize, exec_pop_of_admitted hk (hback.trans_le hsize) (hprogram.trans_eq hback.symm),
    ?_, ?_⟩
  · rw [State.reg_advance_ne _ 1 hk, State.reg_popped_self _ hksp, State.sp_advance]
    exact State.stackRead_pushed hm h4 hrsp
  · rw [State.sp_advance, State.sp_popped_ne _ hksp, hsp, BitVec.sub_add_cancel]

end

end Sys2Proof.Machine
end

section
/-! PROOFS. `initialize` and the state after reset (10_state R19, R22, R23; 70_reset R170, R172). -/

namespace Sys2Proof.Machine

/-! The register file after reset. -/

theorem RegFile.getElem_reset_sp (size : Nat) : (RegFile.reset size)[Reg.sp] = BitVec.ofNat 32 size := by
  simp [RegFile.reset]

theorem RegFile.getElem_reset_ne (size : Nat) {r : Reg} (h : r ≠ Reg.sp) : (RegFile.reset size)[r] = 0 := by
  have hval : Reg.sp.val ≠ r.val := fun e => h (Fin.ext e.symm)
  simp [RegFile.reset, hval]

/-! The regions. -/

theorem Region.fits_iff {g : Region} : g.fits = true ↔ g.base.toNat + g.size ≤ 65536 := decide_eq_true_iff

/-- Disjoint regions share no byte (R19). -/
theorem Region.not_contains_of_disjoint {g k : Region} {p : Nat} (h : g.disjoint k = true) (hk : k.contains p = true) :
    g.contains p = false := by
  have hapart : g.size = 0 ∨ k.size = 0 ∨ g.base.toNat + g.size ≤ k.base.toNat ∨ k.base.toNat + k.size ≤ g.base.toNat :=
    of_decide_eq_true h
  rw [Region.contains_iff] at hk
  refine decide_eq_false ?_
  omega

theorem regionsValid_iff {rom ram : Region} :
    regionsValid rom ram = true ↔ (rom.fits = true ∧ ram.fits = true) ∧ rom.disjoint ram = true := by
  rw [regionsValid, Bool.and_eq_true, Bool.and_eq_true]

/-- A placement past 0xFFFF or with a shared byte is not valid (R172). -/
theorem regionsValid_of_bad {rom ram : Region}
    (hbad : 65536 < rom.base.toNat + rom.size ∨ 65536 < ram.base.toNat + ram.size ∨
      ∃ p, rom.contains p = true ∧ ram.contains p = true) : regionsValid rom ram = false := by
  refine Bool.eq_false_iff.mpr fun hvalid => ?_
  obtain ⟨⟨hrom, hram⟩, hdisjoint⟩ := regionsValid_iff.mp hvalid
  rcases hbad with hpast | hpast | ⟨p, hinRom, hinRam⟩
  · exact absurd (Region.fits_iff.mp hrom) (Nat.not_le.mpr hpast)
  · exact absurd (Region.fits_iff.mp hram) (Nat.not_le.mpr hpast)
  · exact ne_true_of_eq_false (Region.not_contains_of_disjoint hdisjoint hinRam) hinRom

/-! `initialize`. -/

section
variable {s : State} {rom ram : Region} {buffer : List Byte} {hint : Nat}

theorem hostInitialize_of_valid (hvalid : regionsValid rom ram = true) (hlen : buffer.length = rom.size) :
    hostInitialize rom ram buffer hint s = .ok (s.initialized rom ram buffer hint) := by
  rw [hostInitialize, if_pos hvalid, if_pos hlen]

theorem hostInitialize_of_invalid (h : regionsValid rom ram = false) :
    hostInitialize rom ram buffer hint s = .error .regionsInvalid := by
  rw [hostInitialize, if_neg (ne_true_of_eq_false h)]

/-- RAM is zero-filled: the ROM buffer reaches none of its bytes. -/
theorem State.byte_initialized_ram (hvalid : regionsValid rom ram = true) (hlen : buffer.length = rom.size) {p : Nat}
    (hp : ram.contains p = true) : (s.initialized rom ram buffer hint).byte p = 0 := by
  have hout : rom.contains p = false := Region.not_contains_of_disjoint (regionsValid_iff.mp hvalid).2 hp
  have houtside : ¬ (rom.base.toNat ≤ p ∧ p < rom.base.toNat + buffer.length) := hlen ▸ of_decide_eq_false hout
  exact (Memory.read_load Memory.wf_nil _ buffer p).trans (dif_neg houtside)

/-- ROM holds the caller's buffer. -/
theorem State.byte_initialized_rom {k : Nat} (hk : k < buffer.length) :
    (s.initialized rom ram buffer hint).byte (rom.base.toNat + k) = buffer[k] := by
  refine (Memory.read_load Memory.wf_nil _ buffer _).trans ?_
  rw [dif_pos ⟨Nat.le_add_right _ _, Nat.add_lt_add_left hk _⟩]
  simp only [Nat.add_sub_cancel_left]

/-- Settles O42: on valid regions the call is answered with `initialized`. -/
theorem initializeSetsResetValues : Obligations.InitializeSetsResetValues := by
  intro s rom ram buffer hint rest hidle hhost hvalid hlen
  refine ⟨_, step_hostCall_ok hidle hhost (hostInitialize_of_valid hvalid hlen), rfl, rfl, rfl, rfl, rfl, rfl, rfl,
    RegFile.getElem_reset_sp ram.size, fun _ hr => RegFile.getElem_reset_ne ram.size hr,
    fun _ hp => State.byte_initialized_ram hvalid hlen hp, fun _ hk => State.byte_initialized_rom hk⟩

/-- Settles O43: each of the three placements fails the test of the regions. -/
theorem badRegionsRefused : Obligations.BadRegionsRefused :=
  fun _ _ _ _ _ _ hidle hhost hbad =>
    step_hostCall_error hidle hhost (hostInitialize_of_invalid (regionsValid_of_bad hbad))

/-- Settles O44: the register file is the one `initialize` leaves on the reference RAM, and memory lists nothing. -/
theorem resetState : Obligations.ResetState :=
  ⟨RegFile.getElem_reset_sp _, fun _ hr => RegFile.getElem_reset_ne _ hr, rfl, rfl, fun _ _ => rfl⟩

end

end Sys2Proof.Machine
end

section
/-! PROOFS. The host's other calls (40_sequencer R70, R79, R80; 60_exceptions R160 to R162; 20_memory R40, R44, R47): what each
answers, and that a step outside a run does just that. -/

namespace Sys2Proof.Machine

/-! `run`. -/

section
variable {s : State}

theorem hostRun_of_runnable (hregions : regionsValid s.rom s.ram = true) (hphase : s.phase.runnable = true)
    (size budget : Nat) : hostRun size budget s = .ok (s.begun size budget) := by
  rw [hostRun, if_pos hregions, if_pos hphase]

/-- A phase in which a `run` may start is outside a run. -/
theorem Phase.ne_running_of_runnable {ph : Phase} (h : ph.runnable = true) : ph ≠ .running := by
  rintro rfl
  cases h

/-- Settles O45: the phase decides between `begun` and the refusal. -/
theorem runStartsOrIsRefused : Obligations.RunStartsOrIsRefused := by
  refine fun s size budget rest hhost hregions => ⟨fun hready => ?starts, fun hended => ?refused⟩
  case starts =>
    have hrunnable : s.phase.runnable = true := by rcases hready with h | h <;> rw [h] <;> rfl
    have hstep := step_hostCall_ok (Phase.ne_running_of_runnable hrunnable) hhost
      (hostRun_of_runnable (s := { s with host := rest }) hregions hrunnable size budget)
    exact ⟨_, hstep, rfl, rfl, rfl, rfl, rfl, fun _ => rfl, fun _ => rfl, rfl, rfl, rfl, rfl, rfl⟩
  case refused =>
    obtain ⟨hidle, hnot⟩ : s.phase ≠ .running ∧ s.phase.runnable = false := by
      rcases hended with h | ⟨e, h⟩ <;> rw [h] <;> exact ⟨nofun, rfl⟩
    exact step_hostCall_error hidle hhost (hostRun_of_not_runnable (s := { s with host := rest }) hregions hnot size budget)

/-! Registers. -/

theorem hostGetRegister_reg (r : Reg) (s : State) : hostGetRegister r.val s = .ok (s.reg r) := dif_pos r.isLt

theorem hostSetRegister_reg (r : Reg) (v : Word) (s : State) : hostSetRegister r.val v s =
    .ok { s.setReg r v with phase := if r.val = Reg.ip.val then s.phase.afterIpWrite else s.phase } := dif_pos r.isLt

theorem hostGetRegister_of_ge {id : Nat} (h : registerCount ≤ id) (s : State) :
    hostGetRegister id s = .error .registerIdOutOfRange := dif_neg (Nat.not_lt.mpr h)

theorem hostSetRegister_of_ge {id : Nat} (h : registerCount ≤ id) (v : Word) (s : State) :
    hostSetRegister id v s = .error .registerIdOutOfRange := dif_neg (Nat.not_lt.mpr h)

/-- Outside a run, a write of IP lets a `run` start (R80). -/
theorem Phase.runnable_afterIpWrite {ph : Phase} (h : ph ≠ .running) : ph.afterIpWrite.runnable = true := by
  cases ph with
  | running => exact absurd rfl h
  | ready => rfl
  | stopped => rfl

/-- Settles O46: below 21 each call is `reg` or `setReg`; a write of IP also moves the phase. -/
theorem hostRegisterAccess : Obligations.HostRegisterAccess := by
  refine ⟨fun _ => .of_hostCall fun _ => rfl, fun _ _ => .of_hostCall fun _ => rfl, fun s => ⟨fun r => hostGetRegister_reg r s,
    fun r v => ?written, fun id v hid => ⟨hostGetRegister_of_ge hid s, hostSetRegister_of_ge hid v s⟩,
    fun v size budget hidle hregions => ?started, fun _ => rfl⟩⟩
  case written =>
    refine ⟨_, hostSetRegister_reg r v s, s.reg_setReg_self r v, fun k hk => ?_, fun _ => rfl, rfl, ?_, fun hr => ?_⟩
    · exact s.reg_setReg_ne v (by simpa using hk)
    · constructor <;> rfl
    · exact if_neg fun h => hr (Fin.ext h)
  case started =>
    have hip := s.reg_setReg_self Reg.ip v
    exact ⟨_, _, hostSetRegister_reg Reg.ip v s, hip,
      hostRun_of_runnable (s := { s.setReg Reg.ip v with phase := s.phase.afterIpWrite }) hregions
        (Phase.runnable_afterIpWrite hidle) size budget, hip⟩

/-! The raw stack helpers. -/

theorem hostRawPush_of_admitted (v : Word) (h4 : 4 ≤ s.sp.toNat) (hsize : s.sp.toNat ≤ s.ram.size) : hostRawPush v s =
    .ok ((s.setReg Reg.sp (s.sp - 4)).storeWord (s.ram.base.toNat + (s.sp.toNat - 4)) v) := by
  rw [hostRawPush, if_pos ⟨h4, hsize⟩, State.stackWrite_below_sp v h4]

theorem hostRawPop_of_admitted (hsize : s.sp.toNat + 4 ≤ s.ram.size) :
    hostRawPop s = .ok (s.stackRead s.sp, s.setReg Reg.sp (s.sp + 4)) := if_pos hsize

/-- SP after a write of SP. -/
theorem State.sp_setReg (s : State) (v : Word) : (s.setReg Reg.sp v).sp = v := s.reg_setReg_self Reg.sp v

/-- A write of SP keeps every other register. -/
theorem RegsKept.of_setReg (s : State) (r : Reg) (v : Word) : RegsKept [r] s (s.setReg r v) :=
  fun _ hk => s.reg_setReg_ne v (by simpa using hk)

/-- Settles O47: with the slot inside RAM raw_push is a write of SP and of one word, raw_pop a read of the word and a write of SP. -/
theorem rawStackHelpers : Obligations.RawStackHelpers := by
  refine ⟨fun _ => .of_hostCall fun _ => rfl, .of_hostCall fun _ => rfl, fun s hm => ⟨fun v ⟨h4, hsize⟩ => ?pushed,
    fun v hout => if_neg hout, fun hsize => ?popped, fun hout => if_neg (Nat.not_le.mpr hout)⟩⟩
  case pushed =>
    refine ⟨_, hostRawPush_of_admitted v h4 hsize, ?_, RegsKept.of_setReg s Reg.sp _, .of_mem_eq hm rfl, rfl, ?_, ?_⟩
    · exact (congrArg _ (s.sp_setReg _)).trans (toNat_sub_four h4)
    · constructor <;> rfl
    · constructor <;> rfl
  case popped =>
    refine ⟨_, _, hostRawPop_of_admitted hsize, s.stackRead_sp_toNat, ?_, .of_setReg s Reg.sp _, fun _ => rfl, rfl, ?_, ?_⟩
    · rw [State.sp_setReg, toNat_add_four]
    · constructor <;> rfl
    · constructor <;> rfl

/-! Memory. -/

/-- Settles O48: the offset is the address less the base of the region found. -/
theorem memoryTranslatesAddress : Obligations.MemoryTranslatesAddress := by
  refine ⟨fun _ => .of_hostCall fun _ => rfl,
    fun s p => ⟨fun hrom => ?rom, fun hrom hram => ?ram, fun hrom hram => ?unmapped⟩⟩
  case rom =>
    obtain ⟨hle, hlt⟩ := Region.contains_iff.mp hrom
    exact ⟨_, if_pos hrom, Nat.add_sub_of_le hle, Nat.sub_lt_left_of_lt_add hle hlt⟩
  case ram =>
    obtain ⟨hle, hlt⟩ := Region.contains_iff.mp hram
    exact ⟨_, (if_neg (ne_true_of_eq_false hrom)).trans (if_pos hram), Nat.add_sub_of_le hle,
      Nat.sub_lt_left_of_lt_add hle hlt⟩
  case unmapped =>
    exact (if_neg (ne_true_of_eq_false hrom)).trans (if_neg (ne_true_of_eq_false hram))

theorem hostWriteByte_of_mapped {p : Addr} (h : s.rom.contains p.toNat = true ∨ s.ram.contains p.toNat = true) (b : Byte) :
    hostWriteByte p b s = .ok { s with mem := s.mem.write p.toNat b } := by
  rw [hostWriteByte, if_pos (Bool.or_eq_true_iff.mpr h)]

theorem hostWriteByte_of_unmapped {p : Addr} (hrom : s.rom.contains p.toNat = false) (hram : s.ram.contains p.toNat = false)
    (b : Byte) : hostWriteByte p b s = .error .addressUnmapped := by
  simp only [hostWriteByte, hrom, hram, Bool.or_self, Bool.false_eq_true, if_false]

/-- A written byte reads back. -/
theorem Memory.read_write_self {m : Memory} (hm : m.wf) (p : Nat) (b : Byte) : (m.write p b).read p = b := by
  rw [Memory.read_write hm, if_pos rfl]

/-- A byte outside a written one reads as before. -/
theorem Memory.read_write_outside {m : Memory} (hm : m.wf) {p q : Nat} (b : Byte) (h : q < p ∨ p + 1 ≤ q) :
    (m.write p b).read q = m.read q := by
  rw [Memory.read_write hm, if_neg (by omega)]

/-- Settles O49: between runs and in the callback the call is `hostWriteByte`, which writes one byte of memory. -/
theorem hostWriteVisible : Obligations.HostWriteVisible := by
  refine fun s p b hm => ⟨fun rest hidle hhost => ⟨fun hmapped => ?between, fun hrom hram => ?refused⟩,
    fun hmapped => ?inCallback, fun hrom hram => ?refusedInCallback⟩
  case between =>
    have hcall := hostWriteByte_of_mapped (s := { s with host := rest }) hmapped b
    refine ⟨_, step_hostCall_ok hidle hhost hcall, Memory.read_write_self hm _ b,
      fun _ => Memory.read_write_outside hm b, rfl, rfl, ?_, ?_⟩ <;> constructor <;> rfl
  case refused => exact step_hostCall_error hidle hhost (hostWriteByte_of_unmapped (s := { s with host := rest }) hrom hram b)
  case inCallback =>
    exact ⟨_, (callbackCalls_singleton _ s).trans (hostWriteByte_of_mapped hmapped b), Memory.read_write_self hm _ b,
      fun _ => Memory.read_write_outside hm b, rfl⟩
  case refusedInCallback => exact (callbackCalls_singleton _ s).trans (hostWriteByte_of_unmapped hrom hram b)

/-- Settles O50: the call is always answered, with the slot replaced. -/
theorem registrationReplacesCallback : Obligations.RegistrationReplacesCallback :=
  fun _ _ _ hidle hhost => step_hostCall_ok hidle hhost rfl

end

end Sys2Proof.Machine
end
